-- ==== Sys2Proof/Word.lean ====
section
/-! DEFINITION. The two data widths of the block (00_scope.md R7: `BYTE_W` 8, `CELL_W` 16). -/

namespace Sys2Proof

/-- A payload byte, a command code or a count (00_scope.md R7, R14). -/
abbrev Byte := BitVec 8

/-- A register-file cell (00_scope.md R7, R14). -/
abbrev Word := BitVec 16

end Sys2Proof
end

