-- ==== Sys2Proof/Machine/Codec.lean ====
section
/-! DEFINITION. The Register Codec as pure functions (40_codec.md): control words, payload bytes and cells. -/

namespace Sys2Proof.Machine

/-- `w[15:8]`, the high half of a cell: `cell >> 8` (40_codec.md R101, R107). -/
def hiByte (w : Word) : Byte := (w >>> 8).setWidth 8

/-- `w[7:0]`, the low half of a cell: `cell & 0xFF` (40_codec.md R101, R107). -/
def loByte (w : Word) : Byte := (w &&& 0x00FF#16).setWidth 8

/-- `hi ++ lo`: `(hi << 8) | lo` (00_scope.md R14, 40_codec.md R102, R104). -/
def joinBytes (hi lo : Byte) : Word := (hi.setWidth 16 <<< 8) ||| lo.setWidth 16

/-- `decodeControl(cell) -> (code, count)` (40_codec.md R101). -/
def decodeControl (cell : Word) : Byte × Byte := (hiByte cell, loByte cell)

/-- `encodeControl(code, count) -> cell` (40_codec.md R102). -/
def encodeControl (code count : Byte) : Word := joinBytes code count

/-- `ceil(n / 2)`, the cells a payload of `n` bytes occupies (00_scope.md R14, 20_memory.md R53). -/
def ceilHalf (n : Nat) : Nat := (n + 1) / 2

/-- `unpack(cells, length) -> bytes`: two bytes a cell, high half first; the filler of an odd length is not read.
`none` where the precondition `len(cells) >= ceil(length / 2)` fails, for which the model gives no value
(40_codec.md R103). -/
def unpack : List Word → Nat → Option (List Byte)
  | _, 0 => some []
  | [], _ + 1 => none
  | w :: _, 1 => some [hiByte w]
  | w :: ws, n + 2 => (unpack ws n).map fun bs => hiByte w :: loByte w :: bs

/-- `pack(bytes) -> cells`: two bytes a cell, high half first; an odd input's last low half is 0 (40_codec.md R104). -/
def pack : List Byte → List Word
  | [] => []
  | [b] => [joinBytes b 0]
  | a :: b :: bs => joinBytes a b :: pack bs

/-- `b[i]` of a byte payload that lies in `cells`, the cell for `i/2` counting from 0: high half for an even `i`, low
half for an odd one (20_memory.md R52). -/
def payloadByte (cells : List Word) (i : Nat) : Option Byte :=
  cells[i / 2]?.map fun w => if i % 2 = 0 then hiByte w else loByte w

end Sys2Proof.Machine
end

