-- ==== Sys2Proof/Syntax.lean ====
section
/-! DEFINITION. The instructions: the nineteen command codes and the seven block operations of
spec/opcode_table.json, and the handlers a table entry may hold. -/

namespace Sys2Proof

/-- The commands of the canonical table that have a handler (30_encoding.md R87 without row IDLE; 10_state.md R44). -/
inductive Command where
  | pinmode | dwrite | dread | awrite | aread
  | sattach | sdetach | swrite | sread
  | i2cbegin | i2cend | i2cclock | i2cwrite | i2cread
  | spibegin | spiset | spixfer | spiend
  deriving DecidableEq, Repr, Inhabited

/-- A handler, as the value a table entry holds (10_state.md R28). What it computes is not part of the value: the
canonical ones are the rows of 42_commands.md, a custom one (42_commands.md R171) is a name whose behaviour is the
oracle of 41_dispatcher.md R125 (DESIGN CHOICE, log 14). -/
inductive Handler where
  | canonical (c : Command)
  | custom (id : Word)
  deriving DecidableEq, Repr, Inhabited

/-- One constructor per row of spec/opcode_table.json. A command carries the count byte of its control word
(30_encoding.md R81); its argument bytes lie in the payload cells. An operation carries its "operands in"
(30_encoding.md R89). -/
inductive Instr where
  | idle (resc : Byte)
  | pinmode (argc : Byte)
  | dwrite (argc : Byte)
  | dread (argc : Byte)
  | awrite (argc : Byte)
  | aread (argc : Byte)
  | sattach (argc : Byte)
  | sdetach (argc : Byte)
  | swrite (argc : Byte)
  | sread (argc : Byte)
  | i2cbegin (argc : Byte)
  | i2cend (argc : Byte)
  | i2cclock (argc : Byte)
  | i2cwrite (argc : Byte)
  | i2cread (argc : Byte)
  | spibegin (argc : Byte)
  | spiset (argc : Byte)
  | spixfer (argc : Byte)
  | spiend (argc : Byte)
  | decodecontrol (cell : Word)
  | encodecontrol (code count : Byte)
  | unpack (cells : List Word) (length : Byte)
  | pack (bytes : List Byte)
  | poll
  | process
  | register (code : Byte) (handler : Handler)
  deriving DecidableEq, Repr, Inhabited

/-- The instruction that a request for the command with this argument count is. -/
def Command.instr (c : Command) (argc : Byte) : Instr :=
  match c with
  | .pinmode => .pinmode argc
  | .dwrite => .dwrite argc
  | .dread => .dread argc
  | .awrite => .awrite argc
  | .aread => .aread argc
  | .sattach => .sattach argc
  | .sdetach => .sdetach argc
  | .swrite => .swrite argc
  | .sread => .sread argc
  | .i2cbegin => .i2cbegin argc
  | .i2cend => .i2cend argc
  | .i2cclock => .i2cclock argc
  | .i2cwrite => .i2cwrite argc
  | .i2cread => .i2cread argc
  | .spibegin => .spibegin argc
  | .spiset => .spiset argc
  | .spixfer => .spixfer argc
  | .spiend => .spiend argc

end Sys2Proof
end

