-- ==== Sys2Proof/WellFormed.lean ====
section
/-! DEFINITION. Which instructions have an encoding: the bounds the count bytes of 30_encoding.md R89's operand layout
(log 7) put on the operand sequences. Every count byte of a control word is legal (30_encoding.md R88 f). -/

namespace Sys2Proof

/-- A handler that a handler word can name: a custom name does not begin with the byte that marks the canonical
handlers (DESIGN CHOICE, log 7). -/
def Handler.wf : Handler → Bool
  | .canonical _ => true
  | .custom id => Machine.hiByte id != 0xFF

/-- An instruction that has an encoding. `pack` takes 0..255 bytes (40_codec.md R104); `unpack`'s cells travel behind a
count byte (log 7). -/
def Instr.wf : Instr → Bool
  | .unpack cells _ => decide (cells.length ≤ 255)
  | .pack bytes => decide (bytes.length ≤ 255)
  | .register _ h => h.wf
  | .idle _ | .pinmode _ | .dwrite _ | .dread _ | .awrite _ | .aread _ => true
  | .sattach _ | .sdetach _ | .swrite _ | .sread _ => true
  | .i2cbegin _ | .i2cend _ | .i2cclock _ | .i2cwrite _ | .i2cread _ => true
  | .spibegin _ | .spiset _ | .spixfer _ | .spiend _ => true
  | .decodecontrol _ | .encodecontrol _ _ | .poll | .process => true

end Sys2Proof
end

