-- ==== Sys2Proof/Decode.lean ====
section
/-! DEFINITION. The decoder of control words (30_encoding.md R81, R82, R87, R90) and of the operation port's bytes
(30_encoding.md R89), total on every word and every byte list, and after it the encoder. -/

namespace Sys2Proof

/-- Why a word or a byte list is no row of the opcode table. -/
inductive DecodeError where
  /-- A request whose code has no row: 4 or 20..255 (42_commands.md R170). PROCESS serves it all the same. -/
  | noRow (code : Byte)
  /-- An operation select that is unassigned: `op = 7` (30_encoding.md R89), or bits above the 3-bit field set. -/
  | unassignedOp (op : Byte)
  /-- The port's bytes end before the operation's operands do. -/
  | truncated
  /-- A handler word that names no handler (log 7). -/
  | badHandler (w : Word)
  deriving DecidableEq, Repr

/-- What an instruction is encoded in: the control word, in `x[0]`, or bytes on the operation port (log 7). -/
inductive Image where
  | control (w : Word)
  | port (bytes : List Byte)
  deriving DecidableEq, Repr

/-- The command of a code of the canonical table; code 0 is no request and code 4 and 20..255 have no row
(30_encoding.md R87, R88). -/
def commandOf (code : Byte) : Option Command :=
  match code.toNat with
  | 1 => some .pinmode
  | 2 => some .dwrite
  | 3 => some .dread
  | 5 => some .awrite
  | 6 => some .aread
  | 7 => some .sattach
  | 8 => some .sdetach
  | 9 => some .swrite
  | 10 => some .sread
  | 11 => some .i2cbegin
  | 12 => some .i2cend
  | 13 => some .i2cclock
  | 14 => some .i2cwrite
  | 15 => some .i2cread
  | 16 => some .spibegin
  | 17 => some .spiset
  | 18 => some .spixfer
  | 19 => some .spiend
  | _ => none

/-- The code of a command (30_encoding.md R87). -/
def codeOf : Command → Byte
  | .pinmode => 1
  | .dwrite => 2
  | .dread => 3
  | .awrite => 5
  | .aread => 6
  | .sattach => 7
  | .sdetach => 8
  | .swrite => 9
  | .sread => 10
  | .i2cbegin => 11
  | .i2cend => 12
  | .i2cclock => 13
  | .i2cwrite => 14
  | .i2cread => 15
  | .spibegin => 16
  | .spiset => 17
  | .spixfer => 18
  | .spiend => 19

/-- The row of the opcode map that a control word is: the high byte alone selects it (30_encoding.md R87, R90). -/
def decodeControlWord (w : Word) : Except DecodeError Instr :=
  if Machine.hiByte w = 0 then .ok (.idle (Machine.loByte w))
  else match commandOf (Machine.hiByte w) with
    | some c => .ok (c.instr (Machine.loByte w))
    | none => .error (.noRow (Machine.hiByte w))

/-- The handler that a handler word names: `0xFFcc` is the canonical handler of code `cc`, every other word a custom
name (DESIGN CHOICE, log 7). -/
def decodeHandler (w : Word) : Option Handler :=
  if Machine.hiByte w = 0xFF then (commandOf (Machine.loByte w)).map Handler.canonical else some (.custom w)

/-- The next `n` bytes, and the rest. -/
def takeBytes : Nat → List Byte → Option (List Byte × List Byte)
  | 0, bs => some ([], bs)
  | _ + 1, [] => none
  | n + 1, b :: bs => (takeBytes n bs).map fun p => (b :: p.1, p.2)

/-- The next `n` words, most significant byte first, and the rest. -/
def takeWords : Nat → List Byte → Option (List Word × List Byte)
  | 0, bs => some ([], bs)
  | n + 1, hi :: lo :: bs => (takeWords n bs).map fun p => (Machine.joinBytes hi lo :: p.1, p.2)
  | _ + 1, _ => none

/-- The operands of REGISTER: the code and the handler word. -/
def decodeRegister : List Byte → Except DecodeError (Instr × List Byte)
  | code :: hi :: lo :: bs =>
    match decodeHandler (Machine.joinBytes hi lo) with
    | some h => .ok (.register code h, bs)
    | none => .error (.badHandler (Machine.joinBytes hi lo))
  | _ => .error .truncated

/-- The operands of UNPACK: the length, the number of cells, the cells. -/
def decodeUnpack : List Byte → Except DecodeError (Instr × List Byte)
  | length :: k :: bs =>
    match takeWords k.toNat bs with
    | some (cells, rest) => .ok (.unpack cells length, rest)
    | none => .error .truncated
  | _ => .error .truncated

/-- The operands of PACK: the number of bytes, the bytes. -/
def decodePack : List Byte → Except DecodeError (Instr × List Byte)
  | n :: bs =>
    match takeBytes n.toNat bs with
    | some (bytes, rest) => .ok (.pack bytes, rest)
    | none => .error .truncated
  | _ => .error .truncated

/-- The operand of DECODECONTROL: the cell. -/
def decodeDecodeControl : List Byte → Except DecodeError (Instr × List Byte)
  | hi :: lo :: bs => .ok (.decodecontrol (Machine.joinBytes hi lo), bs)
  | _ => .error .truncated

/-- The operands of ENCODECONTROL: the code and the count. -/
def decodeEncodeControl : List Byte → Except DecodeError (Instr × List Byte)
  | code :: count :: bs => .ok (.encodecontrol code count, bs)
  | _ => .error .truncated

/-- The operation at the front of the port, and the bytes after it: the select byte (30_encoding.md R89, zero above the
3-bit field), then the operands (log 7). -/
def decodeOperation : List Byte → Except DecodeError (Instr × List Byte)
  | [] => .error .truncated
  | op :: bs =>
    match op.toNat with
    | 0 => decodeDecodeControl bs
    | 1 => decodeEncodeControl bs
    | 2 => decodeUnpack bs
    | 3 => decodePack bs
    | 4 => .ok (.poll, bs)
    | 5 => .ok (.process, bs)
    | 6 => decodeRegister bs
    | _ => .error (.unassignedOp op)

/-- The instruction that an image holds, with the bytes left over. -/
def decode : Image → Except DecodeError (Instr × List Byte)
  | .control w =>
    match decodeControlWord w with
    | .ok i => .ok (i, [])
    | .error e => .error e
  | .port bytes => decodeOperation bytes

/-- The two bytes of a word, most significant first. -/
def wordBytes (w : Word) : List Byte := [Machine.hiByte w, Machine.loByte w]

/-- The handler word of a handler (log 7). -/
def handlerWord : Handler → Word
  | .canonical c => Machine.joinBytes 0xFF (codeOf c)
  | .custom id => id

/-- The image of an instruction: format RSP or REQ for the rows of 30_encoding.md R87, the select byte of
30_encoding.md R89 and the operands (log 7) for the operations. -/
def encode : Instr → Image
  | .idle resc => .control (Machine.encodeControl 0 resc)
  | .pinmode argc => .control (Machine.encodeControl 1 argc)
  | .dwrite argc => .control (Machine.encodeControl 2 argc)
  | .dread argc => .control (Machine.encodeControl 3 argc)
  | .awrite argc => .control (Machine.encodeControl 5 argc)
  | .aread argc => .control (Machine.encodeControl 6 argc)
  | .sattach argc => .control (Machine.encodeControl 7 argc)
  | .sdetach argc => .control (Machine.encodeControl 8 argc)
  | .swrite argc => .control (Machine.encodeControl 9 argc)
  | .sread argc => .control (Machine.encodeControl 10 argc)
  | .i2cbegin argc => .control (Machine.encodeControl 11 argc)
  | .i2cend argc => .control (Machine.encodeControl 12 argc)
  | .i2cclock argc => .control (Machine.encodeControl 13 argc)
  | .i2cwrite argc => .control (Machine.encodeControl 14 argc)
  | .i2cread argc => .control (Machine.encodeControl 15 argc)
  | .spibegin argc => .control (Machine.encodeControl 16 argc)
  | .spiset argc => .control (Machine.encodeControl 17 argc)
  | .spixfer argc => .control (Machine.encodeControl 18 argc)
  | .spiend argc => .control (Machine.encodeControl 19 argc)
  | .decodecontrol cell => .port (0 :: wordBytes cell)
  | .encodecontrol code count => .port [1, code, count]
  | .unpack cells length => .port (2 :: length :: BitVec.ofNat 8 cells.length :: cells.flatMap wordBytes)
  | .pack bytes => .port (3 :: BitVec.ofNat 8 bytes.length :: bytes)
  | .poll => .port [4]
  | .process => .port [5]
  | .register code h => .port (6 :: code :: wordBytes (handlerWord h))

/-- The bytes of the longest operation: UNPACK with 255 cells. -/
def longestOperation : Nat := 513

/-- The image of an opcode-table row's bits: a row of at most 8 bits is an operation select, followed by operand bytes
of zeros; a wider one is a control word. -/
def tableImage (nbits w : Nat) : Image :=
  if nbits ≤ 8 then .port (BitVec.ofNat 8 w :: List.replicate (longestOperation - 1) 0)
  else .control (BitVec.ofNat 16 w)

/-- The instruction the decoder reads from an opcode-table row's bits. -/
def decodeTableWord (nbits w : Nat) : Option Instr :=
  match decode (tableImage nbits w) with
  | .ok (i, _) => some i
  | .error _ => none

end Sys2Proof
end

