-- ==== Sys2Proof/Machine/Env.lean ====
section
/-! DEFINITION. The plain data of what lies outside the block: the hardware the handlers act on (10_state.md R34), what
it answers (41_dispatcher.md R125), and the host accesses the transport applies (20_memory.md R64). -/

namespace Sys2Proof.Machine

/-- One value for each of the 256 pin numbers a byte names; `none` where no command has set it. -/
abbrev Pins (α : Type) := Vector (Option α) 256

/-- What SPISET records (42_commands.md R167): the four speed bytes in the order they came (their byte order is not
stated, 20_memory.md R55), the order and the mode. -/
structure SpiSettings where
  speed0 : Byte
  speed1 : Byte
  speed2 : Byte
  speed3 : Byte
  order : Byte
  mode : Byte
  deriving DecidableEq, Repr, Inhabited

/-- What a command puts on a bus (42_commands.md R164, R165, R168; DESIGN CHOICE to keep it as a record, log 22). -/
inductive BusEvent where
  | i2cWrite (addr reg : Byte) (data : List Byte)
  | i2cRead (addr reg count : Byte)
  | spiTransfer (chipSelect : Byte) (data : List Byte)
  deriving DecidableEq, Repr, Inhabited

/-- The external hardware, as far as 10_state.md R34 and 42_commands.md name what commands set in it (log 16). -/
structure Hardware where
  /-- "pin modes" (10_state.md R34), set by PINMODE. -/
  pinModes : Pins Byte
  /-- The value each pin was last driven to by DWRITE (10_state.md R34 "levels"). -/
  digitalOut : Pins Byte
  /-- The 16-bit value last written to each pin by AWRITE. -/
  analogOut : Pins Word
  /-- The "servo array indexed by pin": the angle of the servo attached to the pin, `none` where none is attached. -/
  servos : Pins Byte
  /-- The I2C bus has been begun and not ended. -/
  i2cBegun : Bool
  /-- The 32-bit value I2CCLOCK last set. -/
  i2cClock : Option (BitVec 32)
  /-- The SPI bus has been begun and not ended. -/
  spiBegun : Bool
  /-- The "SPI settings" (10_state.md R34). -/
  spiSettings : Option SpiSettings
  /-- What was put on the I2C and SPI buses, oldest first. -/
  bus : List BusEvent
  deriving DecidableEq, Repr, Inhabited

/-- What the world outside answers to one handler call (41_dispatcher.md R125): the handler never returns, or it returns
and these are the bytes the hardware supplied. `leaves` is the hardware the call leaves behind, of which a canonical
handler fixes the part its row of 42_commands.md states and no rule constrains the rest (log 15, 16). -/
inductive Answer where
  | hangs
  | returns (bytes : List Byte) (leaves : Option Hardware)
  deriving DecidableEq, Repr, Inhabited

/-- The handler environment `E` (10_state.md R34): the hardware, and the free value of the handler oracle
(41_dispatcher.md R125): the answer to the next call, the answers after it, and a counter of the calls, to which the
free values of Config are applied once the answers are used up (log 15). -/
structure Env where
  hw : Hardware
  answer : Answer
  script : List Answer
  draws : Nat
  deriving DecidableEq, Repr, Inhabited

/-- One host access: a read or a write of one cell (20_memory.md R64). -/
inductive HostAccess where
  | read (cell : Nat)
  | write (cell : Nat) (value : Word)
  deriving DecidableEq, Repr, Inhabited

/-- What the host knows from its accesses so far (20_memory.md R66). -/
structure HostView where
  /-- Its last read of `x[0]` showed Idle, and it has written no control word since (R66 a). -/
  sawIdle : Bool
  /-- It has issued a request of its own (R66 b). -/
  asked : Bool
  /-- How many payload cells, from `x[1]`, it may take as a response (R66 b, 60_exceptions.md R195): those that the
  result count covers which its last read of `x[0]` showed, if that read showed Idle and came after its own request. -/
  covered : Nat
  /-- The highest payload cell it has written since its last read of `x[0]`, 0 for none (R66 a). DESIGN CHOICE: a write
  to a cell that does not exist counts (log 24). -/
  wrote : Nat
  deriving DecidableEq, Repr, Inhabited

/-- What one `pollTransport()` applies, in the order the host chose, and what it answers (20_memory.md R51, R64). -/
structure Batch where
  accesses : List HostAccess
  newData : Bool
  deriving DecidableEq, Repr, Inhabited

/-- The transport's hidden state `H` (10_state.md R35): the host transactions still to be applied, one batch for each
coming `pollTransport()`; the last new-data answer; the host reads answered, `(cell, value)`, oldest first; a counter of
the calls, to which the free batch of Config is applied once the queue is used up (log 6); what the host knows; and
whether the host is one that keeps the rendezvous of 20_memory.md R66 (log 24). -/
structure Transport where
  queue : List Batch
  newData : Bool
  answered : List (Nat × Word)
  polls : Nat
  host : HostView
  rendezvous : Bool
  deriving DecidableEq, Repr, Inhabited

end Sys2Proof.Machine
end

