-- ==== Sys2Proof/Config.lean ====
section
/-! DEFINITION. What an implementation fixes (the defaults of the spec's parameters) and the free values, which have no
body: no proof can know one. -/

namespace Sys2Proof.Config

/-- `N`, the number of cells a reset gives the register file: the spec's default (00_scope.md R9, D2; log 1). -/
def numCells : Nat := 100

/-- `TSIZE`, the number of entries a reset gives the command table (00_scope.md R11, D3; log 2). -/
def tableSize : Nat := 256

/-- `T0`, the command table after reset: the canonical handler of every code that has one, every other entry empty
(00_scope.md R12, 10_state.md R44, D18; log 3). -/
def t0 : List (Option Handler) :=
  (List.range tableSize).map fun code => (commandOf (BitVec.ofNat 8 code)).map Handler.canonical

/-- A byte the hardware supplies that nothing states: byte `k` of the answer to call number `draw` (log 15). -/
opaque freeByte (draw k : Nat) : Byte

/-- What the world outside answers to the call after call number `draw`, once the answers at hand are used up (41_dispatcher.md R125;
log 15). -/
opaque freeAnswer (draw : Nat) : Machine.Answer

/-- The hardware a call leaves behind, where no rule states it, at call number `draw` (41_dispatcher.md R125; log 15). -/
opaque freeHardware (draw : Nat) : Machine.Hardware

/-- What the transport applies at `pollTransport()` number `poll`, once the queued host transactions are used up
(20_memory.md R64, 93 U22; log 6). -/
opaque freeBatch (poll : Nat) : Machine.Batch

/-- What `getCell` answers for a cell that does not exist (91_not_in_source.md N14); the block never asks (log 25). -/
opaque absentCell (cell : Nat) : Word

end Sys2Proof.Config
end

