-- ==== Sys2Proof/Machine/State.lean ====
section
/-! DEFINITION. The machine's state (10_state.md R20), the faults (60_exceptions.md R182), the refusals, and the state
after reset (10_state.md R40 to R46). -/

namespace Sys2Proof.Machine

/-- Why the block stops (60_exceptions.md R182). Each is a case the spec gives no result; stopping is SAFE: no claim
about what a device does there can be proved. -/
inductive Fault where
  /-- PROCESS while Idle, with the control word (60_exceptions.md R183). Raised by PROCESS. Safe. -/
  | processWhileIdle (w : Word)
  /-- The count needs more cells than there are (60_exceptions.md R185; 93 U4). Raised by PROCESS and the commands,
  and by UNPACK on too few cells. Safe. -/
  | argRange (count : Byte)
  /-- The table entry of the code is empty (60_exceptions.md R184). Raised by PROCESS and the commands. Safe. -/
  | unregisteredCode (code : Byte)
  /-- The result needs more cells than there are (60_exceptions.md R186). Raised by PROCESS and the commands, after
  the handler ran. Safe. -/
  | resRange (resc : Byte)
  /-- The code lies beyond a table of fewer than 256 entries (60_exceptions.md R187). Raised by REGISTER, PROCESS and
  the commands. Safe. -/
  | tableRange (code : Byte)
  /-- The stuck state of a handler that never returns (60_exceptions.md R188). Raised by PROCESS and the commands. It is
  a hang and sets no mark. Safe. -/
  | handlerHang
  deriving DecidableEq, Repr, Inhabited

/-- Why the machine gives no meaning. -/
inductive Refusal where
  /-- exec's arm for an instruction that has no meaning yet. Safe. -/
  | notModelled (mnemonic : String)
  /-- Raised by fetch: the bytes on the operation port are no operation (30_encoding.md R89: `op = 7` is refused; or the
  operands are cut short, or the handler word names no handler). Safe. -/
  | badOperation (why : DecodeError)
  deriving DecidableEq, Repr

/-- The register file `x` (10_state.md R21, R22): the control cell, which every size `N >= 1` has, and the payload cells
`x[1]` to `x[N-1]`. -/
structure RegFile where
  control : Word
  payload : List Word
  deriving DecidableEq, Repr, Inhabited

/-- What the host accesses of one `pollTransport()` act on: the register file, the host reads answered so far, what the
host knows, whether it keeps the rendezvous, and how many payload cells belong to the request whose control word stands
in the transport transaction being applied, 0 where none does (20_memory.md R67; log 24). -/
structure Link where
  x : RegFile
  answered : List (Nat × Word)
  host : HostView
  rendezvous : Bool
  sending : Nat
  deriving DecidableEq, Repr, Inhabited

/-- The "results out" of the operation port (30_encoding.md R89). -/
inductive OpResult where
  | none
  | codeCount (code count : Byte)
  | cell (w : Word)
  | bytes (bs : List Byte)
  | cells (ws : List Word)
  | pending (p : Bool)
  deriving DecidableEq, Repr, Inhabited

/-- Where the canonical loop of 41_dispatcher.md R133 stands: at POLL, or at the control word after it (log 9). -/
inductive Phase where
  | poll
  | serve
  deriving DecidableEq, Repr, Inhabited

/-- The whole state: the spec's tuple `(x, T, E, H, fault)` (10_state.md R20), the operation port's operands in and
results out (30_encoding.md R89; log 7, 8), and where the canonical loop stands (log 9). -/
structure State where
  /-- The register file (10_state.md R21). -/
  x : RegFile
  /-- The command table (10_state.md R28), `none` for an empty entry. -/
  T : List (Option Handler)
  /-- The handler environment (10_state.md R34). -/
  E : Env
  /-- The transport's hidden state (10_state.md R35). -/
  H : Transport
  /-- The model-only mark that a fault was raised (60_exceptions.md R190; log 11). -/
  fault : Option Fault
  /-- The results of the last operation that has any. -/
  result : OpResult
  /-- The operations waiting on the operation port, as bytes. -/
  port : List Byte
  /-- Where the canonical loop stands. -/
  phase : Phase
  deriving DecidableEq, Repr, Inhabited

/-- The hardware after reset, which the spec leaves unspecified (10_state.md R45): nothing set, no servo attached, no
bus begun (DESIGN CHOICE, log 5). -/
def Hardware.reset : Hardware where
  pinModes := Vector.replicate 256 none
  digitalOut := Vector.replicate 256 none
  analogOut := Vector.replicate 256 none
  servos := Vector.replicate 256 none
  i2cBegun := false
  i2cClock := none
  spiBegun := false
  spiSettings := none
  bus := []

/-- The environment after reset, unspecified in the spec (10_state.md R45; DESIGN CHOICE, log 5, 15): the first call
returns and the hardware supplies no byte of its own, so that every byte of it is free; every later answer is free. -/
def Env.reset : Env where
  hw := Hardware.reset
  answer := .returns [] none
  script := []
  draws := 0

/-- The transport after reset, unspecified in the spec (10_state.md R45; DESIGN CHOICE, log 6): nothing queued, so that
every batch of host accesses is free; and a host that has read and written nothing yet and keeps the rendezvous
(93_implementation_defined.md U13; log 24). -/
def Transport.reset : Transport where
  queue := []
  newData := false
  answered := []
  polls := 0
  host := { sawIdle := false, asked := false, covered := 0, wrote := 0 }
  rendezvous := true

/-- The machine right after a reset, with every value the spec leaves open an argument: the table `T0`
(00_scope.md R12), the payload cells (10_state.md R42), `E` and `H` (10_state.md R45). The control cell is 0x0000
(10_state.md R41), no fault is recorded (10_state.md R46), and the loop stands at its top. -/
def State.launch (t0 : List (Option Handler)) (payload : List Word) (e : Env) (h : Transport) : State where
  x := { control := 0x0000, payload := payload }
  T := t0
  E := e
  H := h
  fault := none
  result := .none
  port := []
  phase := .poll

/-- The machine right after reset (10_state.md R46, 70_reset_and_hazards.md R210), with the default `T0` and the values
logs 1, 4, 5 and 6 name for what the spec leaves open. -/
def State.reset : State :=
  State.launch Config.t0 (List.replicate (Config.numCells - 1) 0x0000) Env.reset Transport.reset

end Sys2Proof.Machine
end

