-- ==== Sys2Proof/Machine/Ops.lean ====
section
/-! DEFINITION. The named operations: cells, the transport's polling primitive, the table, the oracle, raising a fault,
and fetching the next instruction. -/

namespace Sys2Proof.Config

/-- A state in which the fault `r` was raised at `s`: of it nothing may be assumed (60_exceptions.md R190, 93 U21;
log 11). -/
opaque afterFault (r : Machine.Fault) (s : Machine.State) : Machine.State

end Sys2Proof.Config

namespace Sys2Proof.Machine

/-- `N`, the number of cells (00_scope.md R9). -/
def RegFile.size (x : RegFile) : Nat := x.payload.length + 1

/-- Cell `i`, `none` where `i > N - 1` (10_state.md R22). -/
def RegFile.cell? (x : RegFile) : Nat → Option Word
  | 0 => some x.control
  | k + 1 => x.payload[k]?

/-- `x[i]`, the source's `getCell` (20_memory.md R51). The block never reads a cell that does not exist; what such a read
answers is free (log 25). -/
def RegFile.getCell (x : RegFile) (i : Nat) : Word := (x.cell? i).getD (Config.absentCell i)

/-- `x[i] <- v`, the source's `setCell` (20_memory.md R51): it changes no other cell. No cell changes where `x[i]` does
not exist (log 23, 25). -/
def RegFile.setCell (x : RegFile) (i : Nat) (v : Word) : RegFile :=
  match i with
  | 0 => { x with control := v }
  | k + 1 => { x with payload := x.payload.set k v }

/-- `MemRead(a, n)`: `n` cells from `x[a]`, in ascending order (00_scope.md R17). -/
def RegFile.memRead (x : RegFile) (a : Nat) : Nat → List Word
  | 0 => []
  | n + 1 => x.getCell a :: x.memRead (a + 1) n

/-- `MemWrite(a, n, cs)`: the cells `cs` from `x[a]`, in ascending order (00_scope.md R17). -/
def RegFile.memWrite (x : RegFile) (a : Nat) : List Word → RegFile
  | [] => x
  | c :: cs => (x.setCell a c).memWrite (a + 1) cs

/-- `MAXBYTES`, the largest payload that fits (00_scope.md R10). -/
def RegFile.maxBytes (x : RegFile) : Nat := min 255 (2 * (x.size - 1))

/-- `raise <Fault>(info)` (00_scope.md R17, 60_exceptions.md R190): the operation ends with the fault and has no result.
There is no trap entry and no return from one (60_exceptions.md R190, R191). -/
def raise (r : Fault) : Host.Outcome State Fault Refusal := .fault r

/-- What a run is marked with once it has raised `r` at `s` (60_exceptions.md R190; log 11). -/
def State.marked (r : Fault) (s : State) : State := { Config.afterFault r s with fault := some r }

/-- Whether a host that keeps the rendezvous makes an access (20_memory.md R66, 60_exceptions.md R195). It may read `x[0]`
at any time, and a payload cell only as part of a response it has seen (R66 b). It writes a request control word only
after it has read `x[0]` and seen Idle, and has written nothing since but payload cells of that request (R66 a, R68).
While a request is pending it writes no cell at all (R66 c), but for the payload cells of the request whose control word
stands in the same transport transaction (R67). -/
def Link.may (l : Link) : HostAccess → Bool
  | .read 0 => true
  | .read (k + 1) => hiByte l.x.control == 0 && decide (k < l.host.covered)
  | .write 0 w =>
    hiByte l.x.control == 0 && l.host.sawIdle && hiByte w != 0 && decide (l.host.wrote ≤ ceilHalf (loByte w).toNat)
  | .write (k + 1) _ => hiByte l.x.control == 0 || decide (k < l.sending)

/-- What the host knows after an access (20_memory.md R66). -/
def HostView.after (v : HostView) (x : RegFile) : HostAccess → HostView
  | .read 0 =>
    { v with
      sawIdle := hiByte x.control == 0
      covered := if hiByte x.control == 0 && v.asked then ceilHalf (loByte x.control).toNat else 0
      wrote := 0 }
  | .read (_ + 1) => v
  | .write 0 _ => { sawIdle := false, asked := true, covered := 0, wrote := 0 }
  | .write (k + 1) _ => { v with wrote := max v.wrote (k + 1) }

/-- How many payload cells the transaction's request has after an access: a control word opens one, and a read is no part
of a transaction that writes (20_memory.md R67; log 24). -/
def Link.sendingAfter (l : Link) : HostAccess → Nat
  | .read _ => 0
  | .write 0 w => ceilHalf (loByte w).toNat
  | .write (_ + 1) _ => l.sending

/-- A write that would withdraw a pending request, which no host can do (60_exceptions.md R195, 20_memory.md R74). -/
def RegFile.cancelledBy (x : RegFile) : HostAccess → Bool
  | .read _ => false
  | .write 0 w => hiByte x.control != 0 && hiByte w == 0
  | .write (_ + 1) _ => false

/-- Whether the host has this move: never a cancellation (60_exceptions.md R195); else any access, but that a host in the
rendezvous has no move that breaks it (93_implementation_defined.md U13; log 24). -/
def Link.allows (l : Link) (a : HostAccess) : Bool :=
  !l.x.cancelledBy a && (!l.rendezvous || l.may a)

/-- A host access that happens: a read changes no cell, a write stores the cell (20_memory.md R59, R64). An access to a
cell that does not exist is the transport's own matter and reaches no cell (60_exceptions.md R181 c; log 23). DESIGN
CHOICE: such a write still counts as written for R66 (a), where the spec is silent (91_not_in_source.md N14), and such a
read leaves what the host knows and the transaction as they were (log 24). -/
def Link.land (l : Link) : HostAccess → Link
  | .read i =>
    match l.x.cell? i with
    | some w =>
      { l with
        answered := l.answered ++ [(i, w)]
        host := l.host.after l.x (.read i)
        sending := l.sendingAfter (.read i) }
    | none => l
  | .write i v =>
    { l with
      x := l.x.setCell i v
      host := l.host.after l.x (.write i v)
      sending := l.sendingAfter (.write i v) }

/-- One host access; a move that the host does not have does not happen (log 24). -/
def applyAccess (l : Link) (a : HostAccess) : Link := if l.allows a then l.land a else l

/-- Host accesses, in the order the host chose (20_memory.md R64). -/
def applyAccesses (l : Link) (as : List HostAccess) : Link := as.foldl applyAccess l

/-- What host accesses act on when a `pollTransport()` begins, in the state. -/
def State.link (s : State) : Link where
  x := s.x
  answered := s.H.answered
  host := s.H.host
  rendezvous := s.H.rendezvous
  sending := 0

/-- The host accesses that the next `pollTransport()` applies: the next queued batch, else a free one (log 6). -/
def Transport.next (h : Transport) : Batch := h.queue.headD (Config.freeBatch h.polls)

/-- The link after the accesses of the next `pollTransport()`. -/
def State.polled (s : State) : Link := applyAccesses s.link s.H.next.accesses

/-- `pollTransport()` (20_memory.md R51, R64): the transport applies one batch of host accesses; the answer says whether
new data arrived since the last call, and is the transport's own (10_state.md R32). -/
def pollTransport (s : State) : Bool × State :=
  (s.H.next.newData,
    { s with
      x := s.polled.x
      H := { queue := s.H.queue.tail
             newData := s.H.next.newData
             answered := s.polled.answered
             polls := s.H.polls + 1
             host := s.polled.host
             rendezvous := s.polled.rendezvous } })

/-- The value at a pin, `none` where no command has set it. -/
def pinGet {α : Type} (v : Pins α) (pin : Byte) : Option α := v[pin.toNat]'(pin.isLt)

/-- The pins with the value of one pin set, or cleared. -/
def pinPut {α : Type} (v : Pins α) (pin : Byte) (a : Option α) : Pins α := v.set pin.toNat a pin.isLt

/-- The bytes the hardware supplies to this call, at most 255 (41_dispatcher.md R123, R125). -/
def Env.bytes (e : Env) : List Byte :=
  match e.answer with
  | .returns bs _ => bs.take 255
  | .hangs => []

/-- Byte `k` of what the hardware supplies to this call; free where the answer has none (log 15). -/
def Env.byte (e : Env) (k : Nat) : Byte := e.bytes[k]?.getD (Config.freeByte e.draws k)

/-- A choice that the spec leaves to the handler oracle (log 19, 20). -/
def Env.says (e : Env) : Bool := !e.bytes.isEmpty

/-- The hardware that a call leaves behind, but for the part that a canonical handler's row states: the oracle's
(41_dispatcher.md R125; log 15, 16). -/
def Env.leaves (e : Env) : Hardware :=
  match e.answer with
  | .returns _ (some hw) => hw
  | .returns _ none => Config.freeHardware e.draws
  | .hangs => e.hw

/-- The environment after a call that leaves the hardware `hw`: the next answer is the next of the script, else a free one (log 15). -/
def Env.after (e : Env) (hw : Hardware) : Env where
  hw := hw
  answer := e.script.headD (Config.freeAnswer e.draws)
  script := e.script.tail
  draws := e.draws + 1

/-- The next instruction, and the state in which it runs. An operation waiting on the operation port comes first
(41_dispatcher.md R133: operations "may stand before the loop and between turns"; log 7, 9). Else the canonical loop
runs: POLL, and then the row that the control word is (30_encoding.md R90); a request whose code has no row is
PROCESS's all the same (42_commands.md R170, R171). -/
def fetch (s : State) : Except DecodeError (Instr × State) :=
  match s.port with
  | b :: bs =>
    match decodeOperation (b :: bs) with
    | .ok (i, rest) => .ok (i, { s with port := rest })
    | .error e => .error e
  | [] =>
    match s.phase with
    | .poll => .ok (.poll, { s with phase := .serve })
    | .serve =>
      match decodeControlWord s.x.control with
      | .ok i => .ok (i, { s with phase := .poll })
      | .error _ => .ok (.process, { s with phase := .poll })

/-- An opcode-table row's bits placed where the next fetch finds them: an operation on the operation port, a control
word in `x[0]` with the loop at the control word (log 28). -/
def placeImage (s : State) : Image → State
  | .port bytes => { s with port := bytes }
  | .control w => { s with x := s.x.setCell 0 w, port := [], phase := .serve }

end Sys2Proof.Machine
end

