-- ==== Sys2Proof/Machine/CodecOps.lean ====
section
/-! DEFINITION. The four codec operations at the operation port (40_codec.md R100 to R104): pure functions of their
operands, whose results go to the port's results out (30_encoding.md R89; log 8) and nowhere else. -/

namespace Sys2Proof.Machine

/-- DECODECONTROL (40_codec.md R101). -/
def execDecodecontrol (cell : Word) (s : State) : Host.Outcome State Fault Refusal :=
  .next { s with result := .codeCount (decodeControl cell).1 (decodeControl cell).2 }

/-- ENCODECONTROL (40_codec.md R102). -/
def execEncodecontrol (code count : Byte) (s : State) : Host.Outcome State Fault Refusal :=
  .next { s with result := .cell (encodeControl code count) }

/-- UNPACK (40_codec.md R103); too few cells is the fault of 93 U4 (log 13). -/
def execUnpack (cells : List Word) (length : Byte) (s : State) : Host.Outcome State Fault Refusal :=
  match unpack cells length.toNat with
  | some bs => .next { s with result := .bytes bs }
  | none => raise (.argRange length)

/-- PACK (40_codec.md R104). -/
def execPack (bytes : List Byte) (s : State) : Host.Outcome State Fault Refusal :=
  .next { s with result := .cells (pack bytes) }

end Sys2Proof.Machine
end

