-- ==== Sys2Proof/Machine/Operands.lean ====
section
/-! DEFINITION. Operand assembly (30_encoding.md R86): the argument bytes of a request, and the wider values they make. -/

namespace Sys2Proof.Machine

/-- The argument bytes `a[0..argc-1]`: `unpack(MemRead(1, ceil(argc/2)), argc)` (30_encoding.md R86, 41_dispatcher.md R130);
`none` where the count needs a cell beyond `x[N-1]` (60_exceptions.md R185). -/
def operands (x : RegFile) (argc : Byte) : Option (List Byte) :=
  if ceilHalf argc.toNat > x.size - 1 then none
  else unpack (x.memRead 1 (ceilHalf argc.toNat)) argc.toNat

/-- Four bytes, most significant first, as a 32-bit value: `a[0] ++ a[1] ++ a[2] ++ a[3]` (42_commands.md R163). -/
def joinFour (a b c d : Byte) : BitVec 32 := a ++ b ++ c ++ d

end Sys2Proof.Machine
end

