-- ==== Sys2Proof/Machine/BusHandlers.lean ====
section
/-! DEFINITION. The canonical handlers of the I2C and SPI commands (42_commands.md R161 to R169). What a transfer brings
back, and how many bytes, is the oracle's (log 21); what it puts on the bus is recorded (log 22). The hardware is what the
oracle leaves, with the part in it that the row states (41_dispatcher.md R125; log 16). -/

namespace Sys2Proof.Machine

/-- "The handler begins the I2C bus in `E`" (42_commands.md R161). -/
def i2cbeginHandler (args : List Byte) (e : Env) : List Byte × Hardware :=
  match args with
  | [] => ([], { e.leaves with i2cBegun := true })
  | _ => ([], e.leaves)

/-- "The handler ends the I2C bus in `E`" (42_commands.md R162). -/
def i2cendHandler (args : List Byte) (e : Env) : List Byte × Hardware :=
  match args with
  | [] => ([], { e.leaves with i2cBegun := false })
  | _ => ([], e.leaves)

/-- The 32-bit clock value, "4 bytes big-endian" (42_commands.md R163). -/
def i2cclockHandler (args : List Byte) (e : Env) : List Byte × Hardware :=
  match args with
  | [a, b, c, d] => ([], { e.leaves with i2cClock := some (joinFour a b c d) })
  | _ => ([], e.leaves)

/-- An I2C write of the data bytes to a register of a device (42_commands.md R164). Whether no data byte at all counts
as a match is the oracle's choice (log 20). -/
def i2cwriteHandler (args : List Byte) (e : Env) : List Byte × Hardware :=
  match args with
  | addr :: reg :: data =>
    ([], if data.isEmpty && !e.says then e.leaves
         else { e.leaves with bus := e.leaves.bus ++ [.i2cWrite addr reg data] })
  | _ => ([], e.leaves)

/-- An I2C read; the data bytes that come back are the oracle's, their number too (42_commands.md R165; log 21). -/
def i2creadHandler (args : List Byte) (e : Env) : List Byte × Hardware :=
  match args with
  | [addr, reg, count] => (e.bytes, { e.leaves with bus := e.leaves.bus ++ [.i2cRead addr reg count] })
  | _ => ([], e.leaves)

/-- "The handler begins the SPI bus in `E`" (42_commands.md R166). -/
def spibeginHandler (args : List Byte) (e : Env) : List Byte × Hardware :=
  match args with
  | [] => ([], { e.leaves with spiBegun := true })
  | _ => ([], e.leaves)

/-- "The handler records the SPI settings in `E`" (42_commands.md R167). -/
def spisetHandler (args : List Byte) (e : Env) : List Byte × Hardware :=
  match args with
  | [s0, s1, s2, s3, order, mode] =>
    ([], { e.leaves with
           spiSettings := some { speed0 := s0, speed1 := s1, speed2 := s2, speed3 := s3, order := order, mode := mode } })
  | _ => ([], e.leaves)

/-- An SPI transfer with a chip-select pin; the bytes that come back are the oracle's, their number too
(42_commands.md R168; log 21). -/
def spixferHandler (args : List Byte) (e : Env) : List Byte × Hardware :=
  match args with
  | cs :: data => (e.bytes, { e.leaves with bus := e.leaves.bus ++ [.spiTransfer cs data] })
  | _ => ([], e.leaves)

/-- "The handler ends the SPI bus in `E`" (42_commands.md R169). -/
def spiendHandler (args : List Byte) (e : Env) : List Byte × Hardware :=
  match args with
  | [] => ([], { e.leaves with spiBegun := false })
  | _ => ([], e.leaves)

end Sys2Proof.Machine
end

