-- ==== Sys2Proof/Machine/PinHandlers.lean ====
section
/-! DEFINITION. The canonical handlers of the pin commands (42_commands.md R152 to R156). A handler is given its
argument bytes, `argc` of them (41_dispatcher.md R120, R125), and answers its result bytes and the hardware it leaves.
The hardware is what the oracle leaves, with the part in it that the row states (R125; log 16). On an arity mismatch a
handler returns a zero-length result, and what it leaves is the oracle's (R121; log 17). -/

namespace Sys2Proof.Machine

/-- "The handler sets the mode of a pin in `E`" (42_commands.md R152). -/
def pinmodeHandler (args : List Byte) (e : Env) : List Byte × Hardware :=
  match args with
  | [pin, mode] => ([], { e.leaves with pinModes := pinPut e.leaves.pinModes pin (some mode) })
  | _ => ([], e.leaves)

/-- "The handler drives the pin to the value in `E`" (42_commands.md R153). -/
def dwriteHandler (args : List Byte) (e : Env) : List Byte × Hardware :=
  match args with
  | [pin, value] => ([], { e.leaves with digitalOut := pinPut e.leaves.digitalOut pin (some value) })
  | _ => ([], e.leaves)

/-- One result byte, the pin's current logic level; which byte is which level is open (42_commands.md R154; log 15). -/
def dreadHandler (args : List Byte) (e : Env) : List Byte × Hardware :=
  match args with
  | [_] => ([e.byte 0], e.leaves)
  | _ => ([], e.leaves)

/-- The 16-bit value `a[1] ++ a[2]` goes to the pin (42_commands.md R155). -/
def awriteHandler (args : List Byte) (e : Env) : List Byte × Hardware :=
  match args with
  | [pin, hi, lo] => ([], { e.leaves with analogOut := pinPut e.leaves.analogOut pin (some (joinBytes hi lo)) })
  | _ => ([], e.leaves)

/-- Two result bytes, the reading's value-hi and value-lo (42_commands.md R156; the reading is free, log 15). -/
def areadHandler (args : List Byte) (e : Env) : List Byte × Hardware :=
  match args with
  | [_] => ([e.byte 0, e.byte 1], e.leaves)
  | _ => ([], e.leaves)

end Sys2Proof.Machine
end

