-- ==== Sys2Proof/Machine/ServoHandlers.lean ====
section
/-! DEFINITION. The canonical handlers of the servo commands (42_commands.md R157 to R160, R172): they report a status
explicitly, 0 being failure. Which attempts succeed, and with which nonzero status, is free (log 18). -/

namespace Sys2Proof.Machine

/-- What a servo handler returns on an arity mismatch: `[]` or `[0]`, the oracle's choice (42_commands.md R172, 93 U11;
log 19). -/
def servoMismatch (e : Env) : List Byte := if e.says then [0] else []

/-- A success attaches a servo to the pin, at an angle nothing states; what a failure leaves is the oracle's
(42_commands.md R157; log 18). -/
def sattachHandler (args : List Byte) (e : Env) : List Byte × Hardware :=
  match args with
  | [pin] =>
    ([e.byte 0],
      if e.byte 0 = 0 then e.leaves
      else { e.leaves with servos := pinPut e.leaves.servos pin (some (e.byte 1)) })
  | _ => (servoMismatch e, e.leaves)

/-- A success detaches the servo of the pin; what a failure leaves is the oracle's (42_commands.md R158; log 18). -/
def sdetachHandler (args : List Byte) (e : Env) : List Byte × Hardware :=
  match args with
  | [pin] =>
    ([e.byte 0],
      if e.byte 0 = 0 then e.leaves
      else { e.leaves with servos := pinPut e.leaves.servos pin none })
  | _ => (servoMismatch e, e.leaves)

/-- With no servo attached to the pin the result is `[0]`; else the status is free, and a success sets the angle
(42_commands.md R159; log 18). -/
def swriteHandler (args : List Byte) (e : Env) : List Byte × Hardware :=
  match args with
  | [pin, angle] =>
    match pinGet e.hw.servos pin with
    | none => ([0], e.leaves)
    | some _ =>
      ([e.byte 0],
        if e.byte 0 = 0 then e.leaves
        else { e.leaves with servos := pinPut e.leaves.servos pin (some angle) })
  | _ => (servoMismatch e, e.leaves)

/-- The angle of the servo of the pin; free where none is attached (42_commands.md R160; log 18). -/
def sreadHandler (args : List Byte) (e : Env) : List Byte × Hardware :=
  match args with
  | [pin] => ([(pinGet e.hw.servos pin).getD (e.byte 0)], e.leaves)
  | _ => (servoMismatch e, e.leaves)

end Sys2Proof.Machine
end

