-- ==== Sys2Proof/Machine/Call.lean ====
section
/-! DEFINITION. The primitive `call` (41_dispatcher.md R125): running a handler in the environment. -/

namespace Sys2Proof.Machine

/-- What a handler call comes to (41_dispatcher.md R125): result bytes and an environment, or no return. -/
inductive CallOutcome where
  | hangs
  | returns (res : List Byte) (env : Env)
  deriving DecidableEq, Repr

/-- The result bytes and the hardware a canonical handler leaves (42_commands.md R152 to R169). -/
def canonicalHandler (c : Command) (args : List Byte) (e : Env) : List Byte × Hardware :=
  match c with
  | .pinmode => pinmodeHandler args e
  | .dwrite => dwriteHandler args e
  | .dread => dreadHandler args e
  | .awrite => awriteHandler args e
  | .aread => areadHandler args e
  | .sattach => sattachHandler args e
  | .sdetach => sdetachHandler args e
  | .swrite => swriteHandler args e
  | .sread => sreadHandler args e
  | .i2cbegin => i2cbeginHandler args e
  | .i2cend => i2cendHandler args e
  | .i2cclock => i2cclockHandler args e
  | .i2cwrite => i2cwriteHandler args e
  | .i2cread => i2creadHandler args e
  | .spibegin => spibeginHandler args e
  | .spiset => spisetHandler args e
  | .spixfer => spixferHandler args e
  | .spiend => spiendHandler args e

/-- The result bytes and the hardware a handler leaves. A custom handler is the oracle alone: any result of at most 255
bytes, any hardware (41_dispatcher.md R125, 42_commands.md R171; log 14, 15). -/
def handle (h : Handler) (args : List Byte) (e : Env) : List Byte × Hardware :=
  match h with
  | .canonical c => canonicalHandler c args e
  | .custom _ => (e.bytes, e.leaves)

/-- `call h(argc, args)`, `argc` being the number of bytes in `args` (41_dispatcher.md R125): any handler may hang (60_exceptions.md R188);
one that returns hands over its result and the changed environment. It reaches neither `x` nor `T` (D25). -/
def call (h : Handler) (args : List Byte) (e : Env) : CallOutcome :=
  match e.answer with
  | .hangs => .hangs
  | .returns _ _ => .returns (handle h args e).1 (e.after (handle h args e).2)

end Sys2Proof.Machine
end

