-- ==== Sys2Proof/Machine/Flags.lean ====
section
/-! DEFINITION. The one status flag, the idle flag, and the two-state machine: functions of the control cell
(10_state.md R30, R32). No operation writes a flag on its own. -/

namespace Sys2Proof.Machine

/-- Pending: the control cell's high byte is not 0 (10_state.md R25, R30). -/
def State.isPending (s : State) : Bool := hiByte s.x.control != 0

/-- The idle flag: `x[0][15:8] = 0` (10_state.md R30, R32). -/
def State.isIdle (s : State) : Bool := hiByte s.x.control == 0

end Sys2Proof.Machine
end

