-- ==== Sys2Proof/Machine/Process.lean ====
section
/-! DEFINITION. One request served (41_dispatcher.md R130), and PROCESS itself. -/

namespace Sys2Proof.Machine

/-- The register file with a response in it (41_dispatcher.md R130): the packed result from `x[1]`, then, last, the
control word `encodeControl(0, resc)`. -/
def RegFile.respond (x : RegFile) (res : List Byte) : RegFile :=
  (x.memWrite 1 (pack res)).setCell 0 (encodeControl 0 (BitVec.ofNat 8 res.length))

/-- The end of PROCESS: the response, unless the result needs a cell beyond `x[N-1]` (60_exceptions.md R186). -/
def respond (res : List Byte) (env : Env) (s : State) : Host.Outcome State Fault Refusal :=
  if ceilHalf res.length > s.x.size - 1 then raise (.resRange (BitVec.ofNat 8 res.length))
  else .next { s with E := env, x := s.x.respond res }

/-- The handler called, and the response (41_dispatcher.md R130); the hang of 60_exceptions.md R188 is a stuck state. -/
def callAndRespond (h : Handler) (args : List Byte) (s : State) : Host.Outcome State Fault Refusal :=
  match call h args s.E with
  | .hangs => raise .handlerHang
  | .returns res env => respond res env s

/-- The table entry of a code looked up and its handler called (60_exceptions.md R184, R187). -/
def dispatchCode (code : Byte) (args : List Byte) (s : State) : Host.Outcome State Fault Refusal :=
  match s.T[code.toNat]? with
  | none => raise (.tableRange code)
  | some none => raise (.unregisteredCode code)
  | some (some h) => callAndRespond h args s

/-- PROCESS on the request `(code, argc)`, with the checks in the order of 60_exceptions.md R189 (41_dispatcher.md R130). -/
def serveRequest (code argc : Byte) (s : State) : Host.Outcome State Fault Refusal :=
  if code = 0 then raise (.processWhileIdle (encodeControl code argc))
  else match operands s.x argc with
    | none => raise (.argRange argc)
    | some args => dispatchCode code args s

/-- PROCESS (41_dispatcher.md R130): the request that the control word is. -/
def execProcess (s : State) : Host.Outcome State Fault Refusal :=
  serveRequest (decodeControl s.x.control).1 (decodeControl s.x.control).2 s

end Sys2Proof.Machine
end

