-- ==== Sys2Proof/Machine/DispatcherOps.lean ====
section
/-! DEFINITION. POLL and REGISTER (41_dispatcher.md R129, R131), and row IDLE of the opcode map (42_commands.md R151). -/

namespace Sys2Proof.Machine

/-- IDLE, "idle / no-op" (42_commands.md R151): the control word is a response word and there is nothing to dispatch
(30_encoding.md R90; log 10). -/
def execIdle (_resc : Byte) (s : State) : Host.Outcome State Fault Refusal := .next s

/-- POLL (41_dispatcher.md R129): the transport is driven, and the result is whether the high byte of `x[0]` is not 0
then; the transport's own answer does not enter it (90_conflicts.md C5). -/
def execPoll (s : State) : Host.Outcome State Fault Refusal :=
  .next { (pollTransport s).2 with result := .pending (pollTransport s).2.isPending }

/-- REGISTER (41_dispatcher.md R131): `T[code] <- handler`; a code beyond a smaller table faults (60_exceptions.md R187). -/
def execRegister (code : Byte) (handler : Handler) (s : State) : Host.Outcome State Fault Refusal :=
  if code.toNat < s.T.length then .next { s with T := s.T.set code.toNat (some handler) }
  else raise (.tableRange code)

end Sys2Proof.Machine
end

