-- ==== Sys2Proof/Machine/I2cCommands.lean ====
section
/-! DEFINITION. The I2C commands (42_commands.md R161 to R165): each is one PROCESS
cycle (41_dispatcher.md R130) of a request with its code. -/

namespace Sys2Proof.Machine

/-- I2CBEGIN, code 11, "I2C begin" (42_commands.md R161). -/
def execI2cbegin (argc : Byte) (s : State) : Host.Outcome State Fault Refusal := serveRequest 11 argc s

/-- I2CEND, code 12, "I2C end" (42_commands.md R162). -/
def execI2cend (argc : Byte) (s : State) : Host.Outcome State Fault Refusal := serveRequest 12 argc s

/-- I2CCLOCK, code 13, "I2C set clock" (42_commands.md R163). -/
def execI2cclock (argc : Byte) (s : State) : Host.Outcome State Fault Refusal := serveRequest 13 argc s

/-- I2CWRITE, code 14, "I2C write" (42_commands.md R164). -/
def execI2cwrite (argc : Byte) (s : State) : Host.Outcome State Fault Refusal := serveRequest 14 argc s

/-- I2CREAD, code 15, "I2C read" (42_commands.md R165). -/
def execI2cread (argc : Byte) (s : State) : Host.Outcome State Fault Refusal := serveRequest 15 argc s

end Sys2Proof.Machine
end

