-- ==== Sys2Proof/Machine/PinCommands.lean ====
section
/-! DEFINITION. The pin commands (42_commands.md R152 to R156): each is one PROCESS
cycle (41_dispatcher.md R130) of a request with its code. -/

namespace Sys2Proof.Machine

/-- PINMODE, code 1, "pin mode" (42_commands.md R152). -/
def execPinmode (argc : Byte) (s : State) : Host.Outcome State Fault Refusal := serveRequest 1 argc s

/-- DWRITE, code 2, "digital write" (42_commands.md R153). -/
def execDwrite (argc : Byte) (s : State) : Host.Outcome State Fault Refusal := serveRequest 2 argc s

/-- DREAD, code 3, "digital read" (42_commands.md R154). -/
def execDread (argc : Byte) (s : State) : Host.Outcome State Fault Refusal := serveRequest 3 argc s

/-- AWRITE, code 5, "analog write" (42_commands.md R155). -/
def execAwrite (argc : Byte) (s : State) : Host.Outcome State Fault Refusal := serveRequest 5 argc s

/-- AREAD, code 6, "analog read" (42_commands.md R156). -/
def execAread (argc : Byte) (s : State) : Host.Outcome State Fault Refusal := serveRequest 6 argc s

end Sys2Proof.Machine
end

