-- ==== Sys2Proof/Machine/ServoCommands.lean ====
section
/-! DEFINITION. The servo commands (42_commands.md R157 to R160): each is one PROCESS
cycle (41_dispatcher.md R130) of a request with its code. -/

namespace Sys2Proof.Machine

/-- SATTACH, code 7, "servo attach" (42_commands.md R157). -/
def execSattach (argc : Byte) (s : State) : Host.Outcome State Fault Refusal := serveRequest 7 argc s

/-- SDETACH, code 8, "servo detach" (42_commands.md R158). -/
def execSdetach (argc : Byte) (s : State) : Host.Outcome State Fault Refusal := serveRequest 8 argc s

/-- SWRITE, code 9, "servo write" (42_commands.md R159). -/
def execSwrite (argc : Byte) (s : State) : Host.Outcome State Fault Refusal := serveRequest 9 argc s

/-- SREAD, code 10, "servo read" (42_commands.md R160). -/
def execSread (argc : Byte) (s : State) : Host.Outcome State Fault Refusal := serveRequest 10 argc s

end Sys2Proof.Machine
end

