-- ==== Sys2Proof/Machine/SpiCommands.lean ====
section
/-! DEFINITION. The SPI commands (42_commands.md R166 to R169): each is one PROCESS
cycle (41_dispatcher.md R130) of a request with its code. -/

namespace Sys2Proof.Machine

/-- SPIBEGIN, code 16, "SPI begin" (42_commands.md R166). -/
def execSpibegin (argc : Byte) (s : State) : Host.Outcome State Fault Refusal := serveRequest 16 argc s

/-- SPISET, code 17, "SPI settings" (42_commands.md R167). -/
def execSpiset (argc : Byte) (s : State) : Host.Outcome State Fault Refusal := serveRequest 17 argc s

/-- SPIXFER, code 18, "SPI transfer" (42_commands.md R168). -/
def execSpixfer (argc : Byte) (s : State) : Host.Outcome State Fault Refusal := serveRequest 18 argc s

/-- SPIEND, code 19, "SPI end" (42_commands.md R169). -/
def execSpiend (argc : Byte) (s : State) : Host.Outcome State Fault Refusal := serveRequest 19 argc s

end Sys2Proof.Machine
end

