-- ==== Sys2Proof/Machine/Dispatch.lean ====
section
/-! DEFINITION. What each instruction does: one arm per constructor of Instr, each one call of its meaning. -/

namespace Sys2Proof.Machine

/-- The meaning of an instruction at a state. -/
def exec (i : Instr) (s : State) : Host.Outcome State Fault Refusal :=
  match i with
  | .idle resc => Sys2Proof.Machine.execIdle resc s
  | .pinmode argc => Sys2Proof.Machine.execPinmode argc s
  | .dwrite argc => Sys2Proof.Machine.execDwrite argc s
  | .dread argc => Sys2Proof.Machine.execDread argc s
  | .awrite argc => Sys2Proof.Machine.execAwrite argc s
  | .aread argc => Sys2Proof.Machine.execAread argc s
  | .sattach argc => Sys2Proof.Machine.execSattach argc s
  | .sdetach argc => Sys2Proof.Machine.execSdetach argc s
  | .swrite argc => Sys2Proof.Machine.execSwrite argc s
  | .sread argc => Sys2Proof.Machine.execSread argc s
  | .i2cbegin argc => Sys2Proof.Machine.execI2cbegin argc s
  | .i2cend argc => Sys2Proof.Machine.execI2cend argc s
  | .i2cclock argc => Sys2Proof.Machine.execI2cclock argc s
  | .i2cwrite argc => Sys2Proof.Machine.execI2cwrite argc s
  | .i2cread argc => Sys2Proof.Machine.execI2cread argc s
  | .spibegin argc => Sys2Proof.Machine.execSpibegin argc s
  | .spiset argc => Sys2Proof.Machine.execSpiset argc s
  | .spixfer argc => Sys2Proof.Machine.execSpixfer argc s
  | .spiend argc => Sys2Proof.Machine.execSpiend argc s
  | .decodecontrol cell => Sys2Proof.Machine.execDecodecontrol cell s
  | .encodecontrol code count => Sys2Proof.Machine.execEncodecontrol code count s
  | .unpack cells length => Sys2Proof.Machine.execUnpack cells length s
  | .pack bytes => Sys2Proof.Machine.execPack bytes s
  | .poll => Sys2Proof.Machine.execPoll s
  | .process => Sys2Proof.Machine.execProcess s
  | .register code handler => Sys2Proof.Machine.execRegister code handler s

end Sys2Proof.Machine
end

