-- ==== Sys2Proof/Machine/Step.lean ====
section
/-! DEFINITION. One step of the machine: fetch, then exec; a marked state has no step (60_exceptions.md R190). -/

namespace Sys2Proof.Machine

/-- One atomic step (41_dispatcher.md R136): a state marked with a fault stays at it, since no later step clears the
mark (60_exceptions.md R190); else the next instruction is fetched and run. -/
def step (s : State) : Host.Outcome State Fault Refusal :=
  match s.fault with
  | some r => .fault r
  | none =>
    match fetch s with
    | .ok (i, t) => exec i t
    | .error e => .refused (.badOperation e)

/-- The state with an opcode-table row's bits stored where `step` fetches its next instruction (log 28). -/
def State.withFetchWord (s : State) (nbits w : Nat) : State := placeImage s (tableImage nbits w)

end Sys2Proof.Machine
end

