-- ==== Sys2Proof/Machine/HostAgent.lean ====
section
/-! DEFINITION. The host's two procedures, HOSTREQ and HOSTRSP (20_memory.md R68, R69), as the accesses it hands to the
transport and what it makes of the answers. -/

namespace Sys2Proof.Machine

/-- The payload cells of a request: `pack(a)`, but that the host may put any value in the filler (20_memory.md R54, R68). -/
def packWith (filler : Byte) : List Byte → List Word
  | [] => []
  | [b] => [joinBytes b filler]
  | a :: b :: bs => joinBytes a b :: packWith filler bs

/-- Writes of consecutive cells from `x[a]`. -/
def hostWrites (a : Nat) : List Word → List HostAccess
  | [] => []
  | c :: cs => .write a c :: hostWrites (a + 1) cs

/-- Reads of `n` consecutive cells from `x[a]`. -/
def hostReads (a : Nat) : Nat → List HostAccess
  | 0 => []
  | n + 1 => .read a :: hostReads (a + 1) n

/-- HOSTREQ (20_memory.md R68): the payload cells, then, last, the request control word. -/
def hostRequest (code : Byte) (args : List Byte) (filler : Byte) : List HostAccess :=
  hostWrites 1 (packWith filler args) ++ [.write 0 (encodeControl code (BitVec.ofNat 8 args.length))]

/-- The reads of the last turns of HOSTRSP, when the response it finds has `resc` bytes: `x[0]`, then the cells that the
count covers (20_memory.md R69). -/
def hostReadback (resc : Nat) : List HostAccess := .read 0 :: hostReads 1 (ceilHalf resc)

/-- Where the host's response procedure HOSTRSP stands (20_memory.md R69): in its loop on `x[0]`, at the cells of a
response of `resc` bytes with some of them read, or done. -/
inductive HostRsp where
  | polling
  | reading (resc : Byte) (cells : List Word)
  | done (res : List Byte)
  deriving DecidableEq, Repr, Inhabited

/-- The cell that HOSTRSP reads next: `x[0]` in its loop, then the cells from `x[1]` in ascending order. -/
def HostRsp.cell : HostRsp → Option Nat
  | .polling => some 0
  | .reading _ cells => some (cells.length + 1)
  | .done _ => none

/-- HOSTRSP with some cells of a response of `resc` bytes read: `r <- unpack(cs, resc)` once it has them all. -/
def HostRsp.collect (resc : Byte) (cells : List Word) : HostRsp :=
  match unpack cells resc.toNat with
  | some r => .done r
  | none => .reading resc cells

/-- HOSTRSP given the answer to its read (20_memory.md R69): while the high byte of `x[0]` is not 0 it polls on; the count
is the low byte of the word that ended the loop; a cell other than the one it waits for is none of its answers. -/
def HostRsp.take (h : HostRsp) (answer : Nat × Word) : HostRsp :=
  if h.cell = some answer.1 then
    match h with
    | .polling => if hiByte answer.2 = 0 then HostRsp.collect (loByte answer.2) [] else .polling
    | .reading resc cells => HostRsp.collect resc (cells ++ [answer.2])
    | .done r => .done r
  else h

/-- The first `n` reads that HOSTRSP makes of cells that stay as they are, and where it stands after them. -/
def HostRsp.run (x : RegFile) : Nat → HostRsp → List HostAccess × HostRsp
  | 0, h => ([], h)
  | n + 1, h =>
    match h.cell with
    | none => ([], h)
    | some i =>
      match x.cell? i with
      | none => ([.read i], h)
      | some w => (.read i :: (HostRsp.run x n (h.take (i, w))).1, (HostRsp.run x n (h.take (i, w))).2)

end Sys2Proof.Machine
end

