-- ==== Sys2Proof/Safety.lean ====
section
/-! DEFINITION. What counts as a safe run: the machine's invariant, the host's duties (20_memory.md R66, 60_exceptions.md
R195), and a run carried on past a fault as the spec records it (60_exceptions.md R190). -/

namespace Sys2Proof.Machine

/-- The codec's bounds on a result at the operation port: at most 255 bytes, at most 128 cells (40_codec.md R109). -/
def OpResult.bounded : OpResult → Bool
  | .bytes bs => decide (bs.length ≤ 255)
  | .cells ws => decide (ws.length ≤ 128)
  | .none | .codeCount _ _ | .cell _ | .pending _ => true

/-- The machine's invariant: no fault is recorded (60_exceptions.md R190), the command table has 256 entries
(10_state.md R28), every handler in it has a handler word (log 7), and the last result is within the codec's bounds
(40_codec.md R109). -/
def State.wf (s : State) : Bool :=
  s.fault.isNone && s.T.length == 256 && s.T.all (fun entry => entry.all Handler.wf) && s.result.bounded

/-- Whether a batch of host accesses keeps the rendezvous of 20_memory.md R66, made by any host. -/
def Link.keeps (l : Link) : List HostAccess → Bool
  | [] => true
  | a :: as => l.may a && (l.land a).keeps as

/-- The request `(code, argc)` that an instruction serves at a state (41_dispatcher.md R130): a command its own, PROCESS
the one the control word is; the others serve none. -/
def request (s : State) : Instr → Option (Byte × Byte)
  | .pinmode argc => some (1, argc)
  | .dwrite argc => some (2, argc)
  | .dread argc => some (3, argc)
  | .awrite argc => some (5, argc)
  | .aread argc => some (6, argc)
  | .sattach argc => some (7, argc)
  | .sdetach argc => some (8, argc)
  | .swrite argc => some (9, argc)
  | .sread argc => some (10, argc)
  | .i2cbegin argc => some (11, argc)
  | .i2cend argc => some (12, argc)
  | .i2cclock argc => some (13, argc)
  | .i2cwrite argc => some (14, argc)
  | .i2cread argc => some (15, argc)
  | .spibegin argc => some (16, argc)
  | .spiset argc => some (17, argc)
  | .spixfer argc => some (18, argc)
  | .spiend argc => some (19, argc)
  | .process => some (decodeControl s.x.control)
  | .idle _ | .decodecontrol _ | .encodecontrol _ _ | .unpack _ _ | .pack _ | .poll | .register _ _ => none

/-- The bytes `args` lie in the payload cells where 20_memory.md R52 puts them; the filler and the cells after them may
hold anything. -/
abbrev State.hasArgs (s : State) (args : List Byte) : Prop :=
  ∀ i < args.length, payloadByte s.x.payload i = args[i]?

/-- The payload cells `new` are the payload cells `old` with the result bytes `res` written over them: byte `k` where
20_memory.md R52 puts it, 0 in the filler (R54), and every later cell kept (R70). -/
abbrev holdsResult (new old : List Word) (res : List Byte) : Prop :=
  new.length = old.length ∧ (∀ k < res.length, payloadByte new k = res[k]?) ∧
    (res.length % 2 = 1 → payloadByte new res.length = some 0) ∧
    (∀ k < old.length, ceilHalf res.length ≤ k → new[k]? = old[k]?)

/-- A request that can be served: the code is a request's and has a handler, and the count fits the register file
(60_exceptions.md R195, 70_reset_and_hazards.md R220, R221). -/
def State.canServe (s : State) (code argc : Byte) : Bool :=
  code != 0 && decide (argc.toNat ≤ s.x.maxBytes) &&
    (match s.T[code.toNat]? with
     | some (some _) => true
     | some none => false
     | none => false)

/-- The run carried on as the spec records it (60_exceptions.md R188, R190): a fault leaves a marked state, a hang leaves the state as it
is for ever, and a refusal gives no further state. -/
def State.advance (s : State) : Option State :=
  match step s with
  | .next t => some t
  | .fault .handlerHang => some s
  | .fault r => some (s.marked r)
  | .refused _ => none

end Sys2Proof.Machine
end

