-- ==== Sys2Proof/Certificates/Slice0/Obligations.lean ====
section
/-! DEFINITION. The statements about the machine that are to be proved. -/

open Sys2Proof Sys2Proof.Machine

/-! ### Encodings -/

/-- Every well-formed instruction decodes from its own image to itself, and from the port with the bytes after it left
over (30_encoding.md R81, R82, R89; the operand bytes are log 7's). -/
def Obligations.DecodeEncodeRoundTrip : Prop :=
  ∀ (i : Instr) (rest : List Byte), i.wf = true →
    match encode i with
    | .control w => decode (.control w) = .ok (i, [])
    | .port bytes => decode (.port (bytes ++ rest)) = .ok (i, rest)

/-- A control word that decodes to an instruction is that instruction's image: no two words are one request. -/
def Obligations.ControlWordEncodesBack : Prop :=
  ∀ (w : Word) (i : Instr), decodeControlWord w = .ok i → encode i = .control w

/-- The decoder is total: high byte 0 is a response word, the code of a command is that command with the low byte as
its count, and code 4 and 20..255 have no row (30_encoding.md R87, R88, R90). -/
def Obligations.ControlWordRows : Prop :=
  ∀ w : Word,
    (w.toNat / 256 = 0 → decodeControlWord w = .ok (.idle (BitVec.ofNat 8 w.toNat))) ∧
    (∀ c : Command, w.toNat / 256 = (codeOf c).toNat → decodeControlWord w = .ok (c.instr (BitVec.ofNat 8 w.toNat))) ∧
    (w.toNat / 256 = 4 ∨ 20 ≤ w.toNat / 256 → decodeControlWord w = .error (.noRow (BitVec.ofNat 8 (w.toNat / 256))))

/-- A few words decode to what they stand for: control words written out from 30_encoding.md R81, R82 and R87, and the
three operation selects of R89 as the select byte of the model's port; that byte's upper bits, and the operand bytes of
DECODECONTROL, most significant first, are the model's (DESIGN CHOICE, log 7). -/
def Obligations.WrittenOutWordsDecode : Prop :=
  decodeControlWord 0b0000001100000001#16 = .ok (.dread 1) ∧
  decodeControlWord 0b0000100100000010#16 = .ok (.swrite 2) ∧
  decodeControlWord 0b0000110100000100#16 = .ok (.i2cclock 4) ∧
  decodeControlWord 0b0001001000000011#16 = .ok (.spixfer 3) ∧
  decodeControlWord 0b0000000011111111#16 = .ok (.idle 255) ∧
  decodeOperation [0b00000000#8, 0x03#8, 0x01#8] = .ok (.decodecontrol 0x0301, []) ∧
  decodeOperation [0b00000100#8] = .ok (.poll, []) ∧
  decodeOperation [0b00000101#8] = .ok (.process, [])

/-- An operation select that the 3-bit field does not assign is refused (30_encoding.md R89: `op = 7` is "refused by the
model", a format that is the spec's own decision D4; that bits above the field are refused too is the model's, log 7). -/
def Obligations.UnassignedOperationRefused : Prop :=
  ∀ (s : State) (op : Byte) (bs : List Byte), s.fault = none → s.port = op :: bs → 7 ≤ op.toNat →
    step s = .refused (.badOperation (.unassignedOp op))

/-! ### The Register Codec -/

/-- Control words survive both compositions (40_codec.md R106; the second the spec derives from R101 and R102). -/
def Obligations.ControlWordRoundTrip : Prop :=
  (∀ code count : Byte, decodeControl (encodeControl code count) = (code, count)) ∧
  ∀ cell : Word, encodeControl (decodeControl cell).1 (decodeControl cell).2 = cell

/-- Payloads survive packing and unpacking (40_codec.md R105). -/
def Obligations.PayloadRoundTrip : Prop :=
  ∀ b : List Byte, b.length ≤ 255 → unpack (pack b) b.length = some b

/-- The opposite composition: the same cells for an even count, and the last low byte 0 for an odd one (40_codec.md
R108, which the spec derives from R103 and R104). -/
def Obligations.RepackZeroesFiller : Prop :=
  ∀ (cs : List Word) (n : Nat), cs.length = ceilHalf n →
    ∃ bs, unpack cs n = some bs ∧
      (n % 2 = 0 → pack bs = cs) ∧
      (n % 2 = 1 → ∃ init last, cs = init ++ [last] ∧ pack bs = init ++ [joinBytes (hiByte last) 0])

/-- Lengths of the codec's results, and their bounds (40_codec.md R109, which the spec derives from R103 and R104). -/
def Obligations.CodecLengths : Prop :=
  (∀ b : List Byte, (pack b).length = ceilHalf b.length) ∧
  (∀ (cs : List Word) (n : Nat) (bs : List Byte), unpack cs n = some bs → bs.length = n) ∧
  (∀ b : List Byte, b.length ≤ 255 → (pack b).length ≤ 128) ∧
  ∀ (cs : List Word) (n : Byte) (bs : List Byte), unpack cs n.toNat = some bs → bs.length ≤ 255

/-- Byte `i` of a packed payload lies in the high half of cell `i/2` for an even `i` and in the low half for an odd one
(20_memory.md R52). -/
def Obligations.PackedByteOrder : Prop :=
  ∀ (b : List Byte) (i : Nat), i < b.length →
    ∃ w v, (pack b)[i / 2]? = some w ∧ b[i]? = some v ∧
      v.toNat = if i % 2 = 0 then w.toNat / 256 else w.toNat % 256

/-- DECODECONTROL and ENCODECONTROL complete at every state and change the result alone (40_codec.md R100, R101, R102). -/
def Obligations.ControlWordOperations : Prop :=
  (∀ (cell : Word) (s : State), exec (.decodecontrol cell) s =
    .next { s with result := .codeCount (BitVec.ofNat 8 (cell.toNat / 256)) (BitVec.ofNat 8 (cell.toNat % 256)) }) ∧
  ∀ (code count : Byte) (s : State), exec (.encodecontrol code count) s =
    .next { s with result := .cell (BitVec.ofNat 16 (code.toNat * 256 + count.toNat)) }

/-- UNPACK with cells enough completes at every state and changes the result alone: `length` bytes, each read where
20_memory.md R52 puts it (40_codec.md R100, R103). -/
def Obligations.UnpackCompletes : Prop :=
  ∀ (cells : List Word) (length : Byte) (s : State), ceilHalf length.toNat ≤ cells.length →
    ∃ bs : List Byte, bs.length = length.toNat ∧ (∀ i < length.toNat, bs[i]? = payloadByte cells i) ∧
      exec (.unpack cells length) s = .next { s with result := .bytes bs }

/-- UNPACK with too few cells gives no value: the fault of 93 U4 (40_codec.md R103; log 13). -/
def Obligations.UnpackShortFaults : Prop :=
  ∀ (cells : List Word) (length : Byte) (s : State), cells.length < ceilHalf length.toNat →
    exec (.unpack cells length) s = .fault (.argRange length)

/-- PACK completes at every state and changes the result alone: every byte where 20_memory.md R52 puts it, and 0 in the
filler (40_codec.md R100, R104). -/
def Obligations.PackCompletes : Prop :=
  ∀ (bytes : List Byte) (s : State),
    ∃ ws : List Word, ws.length = ceilHalf bytes.length ∧ (∀ i < bytes.length, payloadByte ws i = bytes[i]?) ∧
      (bytes.length % 2 = 1 → payloadByte ws bytes.length = some 0) ∧
      exec (.pack bytes) s = .next { s with result := .cells ws }

/-! ### POLL -/

/-- POLL completes at every state: the cells, the answered reads and the host's knowledge are those the transport leaves,
the result is whether the high byte of `x[0]` is not 0 then, and the table, the environment and the rest stay
(41_dispatcher.md R129; that the new-data answer is not used is the spec's decision D5, log 26). -/
def Obligations.PollCompletes : Prop :=
  ∀ s : State, ∃ t : State, exec .poll s = .next t ∧
    t.x = (applyAccesses s.link s.H.next.accesses).x ∧
    t.H.answered = (applyAccesses s.link s.H.next.accesses).answered ∧
    t.H.host = (applyAccesses s.link s.H.next.accesses).host ∧
    t.result = .pending (decide (256 ≤ t.x.control.toNat)) ∧
    t.H.queue = s.H.queue.tail ∧ t.H.rendezvous = s.H.rendezvous ∧
    t = { s with x := t.x, H := t.H, result := t.result }

/-- POLL does not consume a request: with a quiet host two POLLs answer the same, and no cell changes (41_dispatcher.md
R128; 90_conflicts.md C5). -/
def Obligations.PollDoesNotConsume : Prop :=
  ∀ (s : State) (nd nd' : Bool) (rest : List Batch),
    s.H.queue = { accesses := [], newData := nd } :: { accesses := [], newData := nd' } :: rest →
    ∃ t u : State, exec .poll s = .next t ∧ exec .poll t = .next u ∧ t.x = s.x ∧ u.x = s.x ∧
      t.result = .pending s.isPending ∧ u.result = .pending s.isPending ∧ u.H.queue = rest

/-- A host write that the host has as a move lands in the POLL that applies it, and the last write of a cell wins
(20_memory.md R51, R64; that a POLL is where host accesses land is the spec's decision D6). Which moves a host has is
60_exceptions.md R195's and log 24's. -/
def Obligations.PollHostWriteLands : Prop :=
  ∀ (s : State) (before after : List HostAccess) (i : Nat) (v : Word) (nd : Bool) (rest : List Batch),
    s.H.queue = { accesses := before ++ .write i v :: after, newData := nd } :: rest →
    (∀ u, HostAccess.write i u ∉ after) → i < s.x.size →
    (applyAccesses s.link before).allows (.write i v) = true →
    ∃ t : State, exec .poll s = .next t ∧ t.x.cell? i = some v

/-- A cell that the host does not write keeps its value through a POLL, and a POLL in which the host leaves `x[0]` alone
answers what the state was (20_memory.md R59; 10_state.md R30). -/
def Obligations.PollFrame : Prop :=
  ∀ (s : State) (i : Nat), (∀ u, HostAccess.write i u ∉ s.H.next.accesses) →
    ∃ t : State, exec .poll s = .next t ∧ t.x.cell? i = s.x.cell? i ∧
      (i = 0 → t.result = .pending s.isPending)

/-- A host read is answered with the cell's value at that point, and changes no cell (20_memory.md R51, R59). A host in
the rendezvous is answered with a payload cell exactly if it is one that the response it has seen covers (R66 b,
60_exceptions.md R195; log 24). -/
def Obligations.PollAnswersRead : Prop :=
  ∀ (s : State) (before : List HostAccess) (i : Nat) (nd : Bool) (rest : List Batch),
    s.H.queue = { accesses := before ++ [.read i], newData := nd } :: rest → i < s.x.size →
    ∃ t : State, exec .poll s = .next t ∧ t.x = (applyAccesses s.link before).x ∧
      t.H.answered = (applyAccesses s.link before).answered ++
        (if s.H.rendezvous = false ∨ i = 0 ∨ t.x.control.toNat < 256 ∧ i ≤ (applyAccesses s.link before).host.covered then
          [(i, t.x.getCell i)] else [])

/-- No host can cancel a request: while one is pending, every POLL answers true, whatever the host does (41_dispatcher.md
R128, 60_exceptions.md R195). And a host that keeps the rendezvous, or any whose batch does, can only wait: no cell
changes, and it is answered with nothing but the pending control word (20_memory.md R66 b, c; log 24). -/
def Obligations.RendezvousKeepsRequest : Prop :=
  ∀ s : State, s.isPending = true →
    ∃ t : State, exec .poll s = .next t ∧ t.result = .pending true ∧
      (s.H.rendezvous = true ∨ s.link.keeps s.H.next.accesses = true →
        t.x = s.x ∧ ∃ n, t.H.answered = s.H.answered ++ List.replicate n (0, s.x.control))

/-! ### PROCESS -/

/-- PROCESS on a request that is a row of the opcode map is that command (41_dispatcher.md R130; 30_encoding.md R90). -/
def Obligations.ProcessIsItsCommand : Prop :=
  ∀ (s : State) (i : Instr), 256 ≤ s.x.control.toNat → decodeControlWord s.x.control = .ok i →
    exec .process s = exec i s

/-- Any request, by PROCESS or by its command, custom handlers included: when the code is not 0, the bytes lie in the
cells, the entry holds a handler that returns and the result fits, the response is the handler's result and the
environment is what it left; nothing else changes (41_dispatcher.md R125, R130; 20_memory.md R70). -/
def Obligations.RequestServed : Prop :=
  ∀ (i : Instr) (s : State) (code argc : Byte) (args bs : List Byte) (leaves : Option Hardware) (h : Handler),
    request s i = some (code, argc) → code ≠ 0 → args.length = argc.toNat → s.hasArgs args →
    s.T[code.toNat]? = some (some h) → s.E.answer = .returns bs leaves →
    (handle h args s.E).1.length ≤ 2 * (s.x.size - 1) →
    ∃ p : List Word, holdsResult p s.x.payload (handle h args s.E).1 ∧
      exec i s = .next { s with
        x := { control := BitVec.ofNat 16 (handle h args s.E).1.length, payload := p }
        E := s.E.after (handle h args s.E).2 }

/-- After a served request the control cell's high byte is 0, whatever the handler did (41_dispatcher.md R135). -/
def Obligations.HighByteZeroAfterProcess : Prop :=
  ∀ (i : Instr) (s t : State) (p : Byte × Byte), request s i = some p → exec i s = .next t → t.x.control.toNat < 256

/-- What serving a request leaves unchanged: everything but the cells and the environment, and of the cells every one
above the result's (20_memory.md R70, decision D15); the filler of an odd result is 0 (R54, decision D8). -/
def Obligations.ServeFrame : Prop :=
  ∀ (i : Instr) (s t : State) (p : Byte × Byte), request s i = some p → exec i s = .next t →
    t = { s with x := t.x, E := t.E } ∧ t.x.payload.length = s.x.payload.length ∧
    (∀ k, ceilHalf t.x.control.toNat ≤ k → t.x.payload[k]? = s.x.payload[k]?) ∧
    (t.x.control.toNat % 2 = 1 → payloadByte t.x.payload t.x.control.toNat = some 0)

/-- A handler learns its count and bytes and the environment, and nothing else: two requests that agree on these, on the
handler and on the number of cells answer alike, whatever their codes, their instructions, their fillers, other cells,
other table entries, transport and port are (41_dispatcher.md R120, R125, decision D25; 20_memory.md R54). -/
def Obligations.HandlerSeesOnlyItsArguments : Prop :=
  ∀ (i i' : Instr) (s s' t : State) (code code' argc : Byte) (args : List Byte),
    request s i = some (code, argc) → request s' i' = some (code', argc) → code' ≠ 0 → args.length = argc.toNat →
    s.hasArgs args → s'.hasArgs args → s.x.size = s'.x.size →
    s.T[code.toNat]? = s'.T[code'.toNat]? → s.E = s'.E → exec i s = .next t →
    ∃ t' : State, exec i' s' = .next t' ∧ t'.E = t.E ∧ t'.x.control = t.x.control ∧
      ∀ k < t.x.control.toNat, payloadByte t'.x.payload k = payloadByte t.x.payload k

/-- PROCESS while Idle faults with the control word (60_exceptions.md R183, the spec's decision D9). -/
def Obligations.ProcessWhileIdleFaults : Prop :=
  ∀ s : State, s.x.control.toNat < 256 → exec .process s = .fault (.processWhileIdle s.x.control)

/-- A count that needs a cell beyond `x[N-1]` faults, before the code is looked up (60_exceptions.md R185, R189, the spec's
decisions D11 and D12). -/
def Obligations.ArgRangeFaults : Prop :=
  ∀ (i : Instr) (s : State) (code argc : Byte), request s i = some (code, argc) → code ≠ 0 →
    2 * (s.x.size - 1) < argc.toNat → exec i s = .fault (.argRange argc)

/-- A code whose entry is empty faults, once the arguments fit (60_exceptions.md R184, R189, the spec's decisions D10
and D12). -/
def Obligations.UnregisteredCodeFaults : Prop :=
  ∀ (i : Instr) (s : State) (code argc : Byte), request s i = some (code, argc) → code ≠ 0 →
    argc.toNat ≤ 2 * (s.x.size - 1) → s.T[code.toNat]? = some none → exec i s = .fault (.unregisteredCode code)

/-- A handler that never returns leaves the request without a next state (60_exceptions.md R188, the spec's decision D14;
that the model names this stuck state as a fault is log 12). -/
def Obligations.HandlerHangStops : Prop :=
  ∀ (i : Instr) (s : State) (code argc : Byte) (h : Handler), request s i = some (code, argc) → code ≠ 0 →
    argc.toNat ≤ 2 * (s.x.size - 1) → s.T[code.toNat]? = some (some h) → s.E.answer = .hangs →
    exec i s = .fault .handlerHang

/-- A result that needs a cell beyond `x[N-1]` faults after the handler ran (60_exceptions.md R186, R189, the spec's
decisions D11 and D12). -/
def Obligations.ResRangeFaults : Prop :=
  ∀ (i : Instr) (s : State) (code argc : Byte) (args bs : List Byte) (leaves : Option Hardware) (h : Handler),
    request s i = some (code, argc) → code ≠ 0 → args.length = argc.toNat → s.hasArgs args →
    s.T[code.toNat]? = some (some h) → s.E.answer = .returns bs leaves →
    2 * (s.x.size - 1) < (handle h args s.E).1.length →
    exec i s = .fault (.resRange (BitVec.ofNat 8 (handle h args s.E).1.length))

/-- TableRange: with 256 entries no instruction raises it; with fewer, REGISTER beyond the table raises it, and so does
a request, at the point where the code would be looked up (60_exceptions.md R187; 256 entries are the spec's decision D3). -/
def Obligations.TableRangeFaults : Prop :=
  (∀ (i : Instr) (s : State) (code : Byte), s.T.length = 256 → exec i s ≠ .fault (.tableRange code)) ∧
  (∀ (s : State) (code : Byte) (h : Handler), s.T.length ≤ code.toNat →
    exec (.register code h) s = .fault (.tableRange code)) ∧
  ∀ (i : Instr) (s : State) (code argc : Byte), request s i = some (code, argc) → code ≠ 0 →
    argc.toNat ≤ 2 * (s.x.size - 1) → s.T.length ≤ code.toNat → exec i s = .fault (.tableRange code)

/-- A request that keeps the host's duties stops only where its handler does: it is served, or its handler hangs, or the
result does not fit (60_exceptions.md R195; 70_reset_and_hazards.md R220, R221). -/
def Obligations.HostDutiesSuffice : Prop :=
  ∀ (i : Instr) (s : State) (code argc : Byte), request s i = some (code, argc) → s.canServe code argc = true →
    (∃ t : State, exec i s = .next t) ∨ (exec i s = .fault .handlerHang ∧ s.E.answer = .hangs) ∨
    ∃ resc : Byte, exec i s = .fault (.resRange resc) ∧ 2 * (s.x.size - 1) < resc.toNat

/-! ### REGISTER and IDLE -/

/-- REGISTER of a code within the table completes: that entry holds the handler, every other entry and everything else
is as it was, and the last registration for a code wins, what was registered before it leaving no trace
(41_dispatcher.md R131, 10_state.md R29). -/
def Obligations.RegisterCompletes : Prop :=
  ∀ (s : State) (code : Byte) (h : Handler), code.toNat < s.T.length →
    ∃ t : State, exec (.register code h) s = .next t ∧ t.T[code.toNat]? = some (some h) ∧
      (∀ c, c ≠ code.toNat → t.T[c]? = s.T[c]?) ∧ t = { s with T := t.T } ∧
      ∀ h' : Handler, exec (.register code h') t = exec (.register code h') s

/-- A registration is seen by the next request for its code, also one that was pending before it (20_memory.md R73, which the
spec derives from 10_state.md R29 and 41_dispatcher.md R130). -/
def Obligations.RegistrationSeenByProcess : Prop :=
  ∀ (i : Instr) (s : State) (code argc : Byte) (args bs : List Byte) (leaves : Option Hardware) (h : Handler),
    code.toNat < s.T.length → request s i = some (code, argc) → code ≠ 0 → args.length = argc.toNat →
    s.hasArgs args → s.E.answer = .returns bs leaves → (handle h args s.E).1.length ≤ 2 * (s.x.size - 1) →
    ∃ t u : State, exec (.register code h) s = .next t ∧ exec i t = .next u ∧
      u.E = s.E.after (handle h args s.E).2 ∧ u.x.control = BitVec.ofNat 16 (handle h args s.E).1.length

/-- IDLE completes at every state and changes nothing (42_commands.md R151; log 10). -/
def Obligations.IdleIsNoOp : Prop :=
  ∀ (resc : Byte) (s : State), exec (.idle resc) s = .next s

/-! ### The commands, each with its canonical handler in the table and a handler that returns

`s.E.leaves` is the hardware that the oracle leaves (41_dispatcher.md R125; log 15, 16), whatever it is: the one before the
call, where the answer holds that. Each statement says what the command sets in it. -/

/-- PINMODE sets the pin's mode and DWRITE drives the pin to the value; both return no bytes (42_commands.md R152, R153;
log 16). -/
def Obligations.PinmodeAndDwriteSetPin : Prop :=
  (∀ (s : State) (pin mode : Byte) (bs : List Byte) (leaves : Option Hardware), s.hasArgs [pin, mode] →
    s.T[1]? = some (some (.canonical .pinmode)) → s.E.answer = .returns bs leaves →
    exec (.pinmode 2) s = .next { s with
      x := { s.x with control := 0x0000 }
      E := s.E.after { s.E.leaves with pinModes := pinPut s.E.leaves.pinModes pin (some mode) } }) ∧
  ∀ (s : State) (pin value : Byte) (bs : List Byte) (leaves : Option Hardware), s.hasArgs [pin, value] →
    s.T[2]? = some (some (.canonical .dwrite)) → s.E.answer = .returns bs leaves →
    exec (.dwrite 2) s = .next { s with
      x := { s.x with control := 0x0000 }
      E := s.E.after { s.E.leaves with digitalOut := pinPut s.E.leaves.digitalOut pin (some value) } }

/-- DREAD returns one byte, the level, with 0 in the filler; AREAD returns two, value-hi and value-lo (42_commands.md R154,
R156). Which bytes is the oracle's; the statement holds for every one (log 15). -/
def Obligations.PinReadsReturnBytes : Prop :=
  (∀ (s : State) (pin : Byte) (bs : List Byte) (leaves : Option Hardware), s.hasArgs [pin] →
    s.T[3]? = some (some (.canonical .dread)) → s.E.answer = .returns bs leaves →
    exec (.dread 1) s = .next { s with
      x := { control := 0x0001, payload := s.x.payload.set 0 (s.E.byte 0 ++ (0 : Byte)) }
      E := s.E.after s.E.leaves }) ∧
  ∀ (s : State) (pin : Byte) (bs : List Byte) (leaves : Option Hardware), s.hasArgs [pin] →
    s.T[6]? = some (some (.canonical .aread)) → s.E.answer = .returns bs leaves →
    exec (.aread 1) s = .next { s with
      x := { control := 0x0002, payload := s.x.payload.set 0 (s.E.byte 0 ++ s.E.byte 1) }
      E := s.E.after s.E.leaves }

/-- AWRITE writes the 16-bit value `a[1] ++ a[2]` to the pin and returns no bytes (42_commands.md R155; log 16). -/
def Obligations.AwriteWritesValue : Prop :=
  ∀ (s : State) (pin hi lo : Byte) (bs : List Byte) (leaves : Option Hardware), s.hasArgs [pin, hi, lo] →
    s.T[5]? = some (some (.canonical .awrite)) → s.E.answer = .returns bs leaves →
    exec (.awrite 3) s = .next { s with
      x := { s.x with control := 0x0000 }
      E := s.E.after { s.E.leaves with analogOut := pinPut s.E.leaves.analogOut pin (some (hi ++ lo)) } }

/-- SATTACH and SDETACH return one status byte; a status that is not 0 attaches, or detaches, the servo of the pin, and
status 0 is a failure, after which the hardware is the oracle's (42_commands.md R157, R158, R172). Which status is the
oracle's; that a status that is not 0 is a success is log 18's. -/
def Obligations.ServoAttachDetach : Prop :=
  (∀ (s : State) (pin : Byte) (bs : List Byte) (leaves : Option Hardware), s.hasArgs [pin] →
    s.T[7]? = some (some (.canonical .sattach)) → s.E.answer = .returns bs leaves →
    ∃ hw : Hardware,
      exec (.sattach 1) s = .next { s with
        x := { control := 0x0001, payload := s.x.payload.set 0 (s.E.byte 0 ++ (0 : Byte)) }
        E := s.E.after hw } ∧
      (s.E.byte 0 = 0 → hw = s.E.leaves) ∧
      (s.E.byte 0 ≠ 0 → hw = { s.E.leaves with servos := hw.servos } ∧ (pinGet hw.servos pin).isSome = true ∧
        ∀ q, q ≠ pin → pinGet hw.servos q = pinGet s.E.leaves.servos q)) ∧
  ∀ (s : State) (pin : Byte) (bs : List Byte) (leaves : Option Hardware), s.hasArgs [pin] →
    s.T[8]? = some (some (.canonical .sdetach)) → s.E.answer = .returns bs leaves →
    ∃ hw : Hardware,
      exec (.sdetach 1) s = .next { s with
        x := { control := 0x0001, payload := s.x.payload.set 0 (s.E.byte 0 ++ (0 : Byte)) }
        E := s.E.after hw } ∧
      (s.E.byte 0 = 0 → hw = s.E.leaves) ∧
      (s.E.byte 0 ≠ 0 → hw = { s.E.leaves with servos := hw.servos } ∧ pinGet hw.servos pin = none ∧
        ∀ q, q ≠ pin → pinGet hw.servos q = pinGet s.E.leaves.servos q)

/-- SWRITE to a pin with no attached servo returns `[0]`; to an attached one it returns the status, and a status that is
not 0 sets the angle (42_commands.md R159, R172; log 18). -/
def Obligations.ServoWriteReportsStatus : Prop :=
  ∀ (s : State) (pin angle : Byte) (bs : List Byte) (leaves : Option Hardware), s.hasArgs [pin, angle] →
    s.T[9]? = some (some (.canonical .swrite)) → s.E.answer = .returns bs leaves →
    (pinGet s.E.hw.servos pin = none →
      exec (.swrite 2) s = .next { s with
        x := { control := 0x0001, payload := s.x.payload.set 0 0x0000 }
        E := s.E.after s.E.leaves }) ∧
    ((pinGet s.E.hw.servos pin).isSome = true →
      exec (.swrite 2) s = .next { s with
        x := { control := 0x0001, payload := s.x.payload.set 0 (s.E.byte 0 ++ (0 : Byte)) }
        E := s.E.after { s.E.leaves with
          servos := if s.E.byte 0 = 0 then s.E.leaves.servos else pinPut s.E.leaves.servos pin (some angle) } })

/-- SREAD returns one byte, the angle of the servo of the pin (42_commands.md R160); for a pin with none attached the
byte is the oracle's (log 18). -/
def Obligations.ServoReadReturnsAngle : Prop :=
  ∀ (s : State) (pin : Byte) (bs : List Byte) (leaves : Option Hardware), s.hasArgs [pin] →
    s.T[10]? = some (some (.canonical .sread)) → s.E.answer = .returns bs leaves →
    ∃ v : Byte, (∀ angle, pinGet s.E.hw.servos pin = some angle → v = angle) ∧
      exec (.sread 1) s = .next { s with
        x := { control := 0x0001, payload := s.x.payload.set 0 (v ++ (0 : Byte)) }
        E := s.E.after s.E.leaves }

/-- I2CBEGIN, I2CEND, SPIBEGIN and SPIEND begin and end their bus, read no payload cell and return no bytes, on every
register file, one with no payload cell too (42_commands.md R161, R162, R166, R169; log 16). -/
def Obligations.BusBeginEnd : Prop :=
  ∀ (s : State) (bs : List Byte) (leaves : Option Hardware), s.E.answer = .returns bs leaves →
    (s.T[11]? = some (some (.canonical .i2cbegin)) → exec (.i2cbegin 0) s = .next { s with
      x := { s.x with control := 0x0000 }, E := s.E.after { s.E.leaves with i2cBegun := true } }) ∧
    (s.T[12]? = some (some (.canonical .i2cend)) → exec (.i2cend 0) s = .next { s with
      x := { s.x with control := 0x0000 }, E := s.E.after { s.E.leaves with i2cBegun := false } }) ∧
    (s.T[16]? = some (some (.canonical .spibegin)) → exec (.spibegin 0) s = .next { s with
      x := { s.x with control := 0x0000 }, E := s.E.after { s.E.leaves with spiBegun := true } }) ∧
    (s.T[19]? = some (some (.canonical .spiend)) → exec (.spiend 0) s = .next { s with
      x := { s.x with control := 0x0000 }, E := s.E.after { s.E.leaves with spiBegun := false } })

/-- I2CCLOCK sets the 32-bit value whose most significant byte comes first, and returns no bytes (42_commands.md R163;
log 16). -/
def Obligations.I2cClockBigEndian : Prop :=
  ∀ (s : State) (a b c d : Byte) (bs : List Byte) (leaves : Option Hardware), s.hasArgs [a, b, c, d] →
    s.T[13]? = some (some (.canonical .i2cclock)) → s.E.answer = .returns bs leaves →
    exec (.i2cclock 4) s = .next { s with
      x := { s.x with control := 0x0000 }
      E := s.E.after { s.E.leaves with
        i2cClock := some (BitVec.ofNat 32 (((a.toNat * 256 + b.toNat) * 256 + c.toNat) * 256 + d.toNat)) } }

/-- I2CWRITE with data bytes puts the address, the register and the data on the bus and returns no bytes; with none it
returns no bytes either, and whether anything goes on the bus is the oracle's (42_commands.md R164; log 20, 22). -/
def Obligations.I2cWriteReturnsNothing : Prop :=
  ∀ (s : State) (addr reg argc : Byte) (data bs : List Byte) (leaves : Option Hardware),
    s.hasArgs (addr :: reg :: data) → argc.toNat = data.length + 2 →
    s.T[14]? = some (some (.canonical .i2cwrite)) → s.E.answer = .returns bs leaves →
    ∃ bus : List BusEvent, exec (.i2cwrite argc) s = .next { s with
        x := { s.x with control := 0x0000 }, E := s.E.after { s.E.leaves with bus := bus } } ∧
      (data ≠ [] → bus = s.E.leaves.bus ++ [.i2cWrite addr reg data]) ∧
      (data = [] → bus = s.E.leaves.bus ∨ bus = s.E.leaves.bus ++ [.i2cWrite addr reg []])

/-- I2CREAD returns the bytes the oracle supplies, however many that fit, in the payload cells in order, and puts the
request on the bus (42_commands.md R165; log 21, 22). -/
def Obligations.I2cReadReturnsData : Prop :=
  ∀ (s : State) (addr reg count : Byte) (bs : List Byte) (leaves : Option Hardware),
    s.hasArgs [addr, reg, count] → s.T[15]? = some (some (.canonical .i2cread)) → s.E.answer = .returns bs leaves →
    bs.length ≤ 255 → bs.length ≤ 2 * (s.x.size - 1) →
    ∃ p : List Word, holdsResult p s.x.payload bs ∧
      exec (.i2cread 3) s = .next { s with
        x := { control := BitVec.ofNat 16 bs.length, payload := p }
        E := s.E.after { s.E.leaves with bus := s.E.leaves.bus ++ [.i2cRead addr reg count] } }

/-- SPISET records the four speed bytes in their order, the order and the mode, and returns no bytes (42_commands.md
R167; log 16). -/
def Obligations.SpiSettingsRecorded : Prop :=
  ∀ (s : State) (s0 s1 s2 s3 order mode : Byte) (bs : List Byte) (leaves : Option Hardware),
    s.hasArgs [s0, s1, s2, s3, order, mode] → s.T[17]? = some (some (.canonical .spiset)) →
    s.E.answer = .returns bs leaves →
    exec (.spiset 6) s = .next { s with
      x := { s.x with control := 0x0000 }
      E := s.E.after { s.E.leaves with
        spiSettings := some { speed0 := s0, speed1 := s1, speed2 := s2, speed3 := s3, order := order, mode := mode } } }

/-- SPIXFER returns the bytes the oracle supplies, however many that fit, over the request's own bytes, and puts the
data on the bus under its chip-select pin (42_commands.md R168; log 21, 22). -/
def Obligations.SpiTransferReturnsData : Prop :=
  ∀ (s : State) (cs argc : Byte) (data bs : List Byte) (leaves : Option Hardware),
    s.hasArgs (cs :: data) → argc.toNat = data.length + 1 → s.T[18]? = some (some (.canonical .spixfer)) →
    s.E.answer = .returns bs leaves → bs.length ≤ 255 → bs.length ≤ 2 * (s.x.size - 1) →
    ∃ p : List Word, holdsResult p s.x.payload bs ∧
      exec (.spixfer argc) s = .next { s with
        x := { control := BitVec.ofNat 16 bs.length, payload := p }
        E := s.E.after { s.E.leaves with bus := s.E.leaves.bus ++ [.spiTransfer cs data] } }

/-- A count that is not the command's arity gives a zero-length result, no payload cell is written, and the
hardware is the oracle's (log 17): the fourteen commands that are not servo commands (41_dispatcher.md R121; 42_commands.md R150). -/
def Obligations.ArityMismatchReturnsNothing : Prop :=
  ∀ (c : Command) (s : State) (argc : Byte) (bs : List Byte) (leaves : Option Hardware),
    argc.toNat ≤ 2 * (s.x.size - 1) → s.T[(codeOf c).toNat]? = some (some (.canonical c)) →
    s.E.answer = .returns bs leaves →
    (match c with
     | .pinmode | .dwrite => argc ≠ 2
     | .dread | .aread => argc ≠ 1
     | .awrite | .i2cread => argc ≠ 3
     | .i2cbegin | .i2cend | .spibegin | .spiend => argc ≠ 0
     | .i2cclock => argc ≠ 4
     | .spiset => argc ≠ 6
     | .i2cwrite => argc.toNat < 2
     | .spixfer => argc = 0
     | .sattach | .sdetach | .swrite | .sread => False) →
    exec (c.instr argc) s = .next { s with x := { s.x with control := 0x0000 }, E := s.E.after s.E.leaves }

/-- On an arity mismatch a servo command returns `[]` or `[0]`, the oracle's choice (42_commands.md R172; log 19), and
the hardware is the oracle's (log 17). A zero byte needs a payload cell, which a count that is not 0 already shows. -/
def Obligations.ServoArityMismatch : Prop :=
  ∀ (c : Command) (s : State) (argc : Byte) (bs : List Byte) (leaves : Option Hardware),
    argc.toNat ≤ 2 * (s.x.size - 1) → 2 ≤ s.x.size → s.T[(codeOf c).toNat]? = some (some (.canonical c)) →
    s.E.answer = .returns bs leaves →
    (c = .swrite ∧ argc ≠ 2 ∨ (c = .sattach ∨ c = .sdetach ∨ c = .sread) ∧ argc ≠ 1) →
    exec (c.instr argc) s = .next { s with x := { s.x with control := 0x0000 }, E := s.E.after s.E.leaves } ∨
    exec (c.instr argc) s = .next { s with
      x := { control := 0x0001, payload := s.x.payload.set 0 0x0000 }, E := s.E.after s.E.leaves }

/-! ### The machine -/

/-- A step runs the decoded instruction: the operation at the front of the port, moving past its bytes; with the port
empty, POLL and then the row that the control word is, or PROCESS where its code has no row (41_dispatcher.md R133,
decision D19, 30_encoding.md R90; the port and the phases are the model's, log 7, 9). -/
def Obligations.StepRunsDecoded : Prop :=
  ∀ s : State, s.fault = none →
    (∀ (b : Byte) (bs rest : List Byte) (i : Instr), s.port = b :: bs → decodeOperation (b :: bs) = .ok (i, rest) →
      step s = exec i { s with port := rest }) ∧
    (s.port = [] → s.phase = .poll → step s = exec .poll { s with phase := .serve }) ∧
    (∀ i : Instr, s.port = [] → s.phase = .serve → decodeControlWord s.x.control = .ok i →
      step s = exec i { s with phase := .poll }) ∧
    (∀ e : DecodeError, s.port = [] → s.phase = .serve → decodeControlWord s.x.control = .error e →
      step s = exec .process { s with phase := .poll })

/-- A fault marks the run, and the mark is never cleared: a step that faults, a hang apart, is carried on by a state marked
with the fault; a marked state has no step but that fault, and a run carried on from it stays marked with it
(60_exceptions.md R190, the spec's decision D24; log 11). A hang leaves the state as it is, for ever (R188, decision
D14; log 12). -/
def Obligations.FaultMarkStays : Prop :=
  ∀ (s : State) (r : Fault),
    (step s = .fault r → r ≠ .handlerHang → ∃ t : State, s.advance = some t ∧ t.fault = some r) ∧
    (s.fault = some r → step s = .fault r ∧ ∀ t : State, s.advance = some t → t.fault = some r) ∧
    (step s = .fault .handlerHang → s.advance = some s)

/-- Every step keeps the invariant: no fault recorded, 256 table entries, every handler nameable, the result within the
codec's bounds (10_state.md R28, 40_codec.md R109). -/
def Obligations.StepKeepsInvariant : Prop :=
  ∀ s t : State, s.wf = true → step s = .next t → t.wf = true

/-- The invariant holds after reset (10_state.md R44, R46, the spec's decision D18; log 2, 3). -/
def Obligations.InvariantHoldsAtReset : Prop :=
  State.reset.wf = true

/-- No step changes the number of cells or of table entries (10_state.md R21, R28). -/
def Obligations.SizesKept : Prop :=
  ∀ s t : State, step s = .next t → t.x.size = s.x.size ∧ t.T.length = s.T.length

/-- Who may change what: `T` only REGISTER, `E` only an instruction that serves a request, `H` only POLL; so the host,
which acts only at POLL, reaches neither `T` nor `E` (60_exceptions.md R194, 10_state.md R23, R28). -/
def Obligations.AgentsRights : Prop :=
  ∀ s t : State, step s = .next t → ∃ (i : Instr) (u : State), fetch s = .ok (i, u) ∧
    (t.T ≠ s.T → ∃ (code : Byte) (h : Handler), i = .register code h) ∧
    (t.E ≠ s.E → ∃ p, request u i = some p) ∧
    (t.H ≠ s.H → i = .poll) ∧
    (t.x ≠ s.x → i = .poll ∨ ∃ p, request u i = some p)

/-- A handler registered for a code stays, or another takes its place: no operation removes an entry (10_state.md R29). -/
def Obligations.NoEntryRemoved : Prop :=
  ∀ (s t : State) (code : Nat) (h : Handler), step s = .next t → s.T[code]? = some (some h) →
    ∃ h', t.T[code]? = some (some h')

/-- Idle becomes Pending only by a host write of a nonzero high byte, and the POLL that applies it answers true: the
block itself writes no nonzero high byte (41_dispatcher.md R127). Pending becomes Idle only in serving a request (R128):
POLL leaves it Pending, since no host can cancel a request (60_exceptions.md R195; that such a write does not happen is
log 24's). -/
def Obligations.PendingTransitions : Prop :=
  ∀ s t : State, step s = .next t →
    (s.isIdle = true → t.isPending = true → ∃ (u : State) (v : Word),
      fetch s = .ok (.poll, u) ∧ HostAccess.write 0 v ∈ s.H.next.accesses ∧ 256 ≤ v.toNat ∧
        t.result = .pending true) ∧
    (s.isPending = true → t.isIdle = true → ∃ (i : Instr) (u : State) (p : Byte × Byte),
      fetch s = .ok (i, u) ∧ request u i = some p)

/-- After reset, whatever the values the spec leaves open: `x[0]` is 0x0000, the block is Idle, `T = T0`, and no fault is
recorded; and the default `T0` holds the canonical handler of each of the eighteen codes and is empty elsewhere
(10_state.md R41, R43, R44, R46, the spec's decisions D16 and D18; log 3). -/
def Obligations.ResetState : Prop :=
  (∀ (t0 : List (Option Handler)) (payload : List Word) (e : Env) (h : Transport),
    (State.launch t0 payload e h).x.control = 0x0000 ∧ (State.launch t0 payload e h).isIdle = true ∧
    (State.launch t0 payload e h).T = t0 ∧ (State.launch t0 payload e h).fault = none) ∧
  (∃ (payload : List Word) (e : Env) (h : Transport), State.reset = State.launch Config.t0 payload e h) ∧
  (∀ c : Command, Config.t0[(codeOf c).toNat]? = some (some (.canonical c))) ∧
  (∀ code : Nat, code = 0 ∨ code = 4 ∨ 20 ≤ code ∧ code < 256 → Config.t0[code]? = some none)

/-- A turn of the loop while Idle, as after every completed PROCESS: unless the host writes a request, POLL answers
false and PROCESS is not called, so the table and the environment stay, and so does every cell that the host does not
write: the last results are stale but harmless (41_dispatcher.md R138, read as 90_conflicts.md C7 reads it). That a turn
is two steps is log 9's, and that the second does nothing is log 10's. -/
def Obligations.QuietIdleTurn : Prop :=
  ∀ s : State, s.fault = none → s.port = [] → s.phase = .poll → s.isIdle = true →
    (∀ v, HostAccess.write 0 v ∈ s.H.next.accesses → v.toNat < 256) →
    ∃ t u : State, step s = .next t ∧ t.result = .pending false ∧ step t = .next u ∧
      u.x = t.x ∧ u.T = s.T ∧ u.E = s.E ∧ u.phase = .poll ∧
      ∀ i, (∀ v, HostAccess.write i v ∉ s.H.next.accesses) → u.x.cell? i = s.x.cell? i

/-- One request and its response, end to end (20_memory.md R68, R69, which the spec derives; 41_dispatcher.md R129, R130,
R133; the loop's phases and the port are log 9's). The host, which if it keeps the rendezvous has seen Idle and written
nothing since (R68's precondition), writes the cells of a request, with any filler, in HOSTREQ's order or, in the one
transaction, in any other, the control word first too (R67, decision D7; log 24), and reads `x[0]` any number of times
while the request is pending. The POLL of the loop takes that in and answers true; the next step calls the handler of its
code on exactly the bytes the host sent; the next POLL answers the reads that HOSTRSP makes of the cells then; and
HOSTRSP, given every answer from its first read of `x[0]` on, ends with exactly the bytes the handler returned. -/
def Obligations.RequestResponseCycle : Prop :=
  ∀ (s : State) (code filler : Byte) (args bs : List Byte) (leaves : Option Hardware) (h : Handler) (m : Nat)
    (nd nd' : Bool) (rest : List Batch) (writes : List HostAccess),
    s.fault = none → s.port = [] → s.phase = .poll →
    (s.H.rendezvous = true → s.isIdle = true ∧ s.H.host.sawIdle = true ∧ s.H.host.wrote = 0) →
    writes.Perm (hostRequest code args filler) →
    code ≠ 0 → args.length ≤ s.x.maxBytes →
    s.T[code.toNat]? = some (some h) → s.E.answer = .returns bs leaves →
    (handle h args s.E).1.length ≤ s.x.maxBytes →
    s.H.queue = { accesses := writes ++ List.replicate m (.read 0), newData := nd } ::
      { accesses := hostReadback (handle h args s.E).1.length, newData := nd' } :: rest →
    ∃ t u v : State, step s = .next t ∧ t.result = .pending true ∧
      step t = .next u ∧ u.E = s.E.after (handle h args s.E).2 ∧ u.isIdle = true ∧
      step u = .next v ∧ v.result = .pending false ∧ v.x = u.x ∧
      HostRsp.run u.x (1 + ceilHalf (handle h args s.E).1.length) .polling =
        (hostReadback (handle h args s.E).1.length, .done (handle h args s.E).1) ∧
      ∃ answers, v.H.answered = s.H.answered ++ answers ∧
        answers.foldl HostRsp.take .polling = .done (handle h args s.E).1
end

