-- ==== Sys2Proof/Laws/State.lean ====
section
/-! SUPPORT. One lemma per field for each update of the state, true by `rfl`, so that no proof unfolds one. -/

namespace Sys2Proof.Machine

@[simp] theorem setCell_zero_control (x : RegFile) (v : Word) : (x.setCell 0 v).control = v := rfl
@[simp] theorem setCell_zero_payload (x : RegFile) (v : Word) : (x.setCell 0 v).payload = x.payload := rfl
@[simp] theorem setCell_succ_control (x : RegFile) (k : Nat) (v : Word) : (x.setCell (k + 1) v).control = x.control := rfl
@[simp] theorem setCell_succ_payload (x : RegFile) (k : Nat) (v : Word) :
    (x.setCell (k + 1) v).payload = x.payload.set k v := rfl

@[simp] theorem pollTransport_T (s : State) : (pollTransport s).2.T = s.T := rfl
@[simp] theorem pollTransport_E (s : State) : (pollTransport s).2.E = s.E := rfl
@[simp] theorem pollTransport_fault (s : State) : (pollTransport s).2.fault = s.fault := rfl
@[simp] theorem pollTransport_result (s : State) : (pollTransport s).2.result = s.result := rfl
@[simp] theorem pollTransport_port (s : State) : (pollTransport s).2.port = s.port := rfl
@[simp] theorem pollTransport_phase (s : State) : (pollTransport s).2.phase = s.phase := rfl
@[simp] theorem pollTransport_x (s : State) :
    (pollTransport s).2.x = s.polled.x := rfl
@[simp] theorem pollTransport_answered (s : State) :
    (pollTransport s).2.H.answered = s.polled.answered := rfl
@[simp] theorem pollTransport_host (s : State) : (pollTransport s).2.H.host = s.polled.host := rfl
@[simp] theorem pollTransport_rendezvous (s : State) : (pollTransport s).2.H.rendezvous = s.polled.rendezvous := rfl
@[simp] theorem pollTransport_polls (s : State) : (pollTransport s).2.H.polls = s.H.polls + 1 := rfl
@[simp] theorem pollTransport_queue (s : State) : (pollTransport s).2.H.queue = s.H.queue.tail := rfl
@[simp] theorem pollTransport_newData (s : State) : (pollTransport s).2.H.newData = s.H.next.newData := rfl

@[simp] theorem link_x (s : State) : s.link.x = s.x := rfl
@[simp] theorem link_answered (s : State) : s.link.answered = s.H.answered := rfl
@[simp] theorem link_host (s : State) : s.link.host = s.H.host := rfl
@[simp] theorem link_sending (s : State) : s.link.sending = 0 := rfl
@[simp] theorem link_rendezvous (s : State) : s.link.rendezvous = s.H.rendezvous := rfl

@[simp] theorem land_write_x (l : Link) (i : Nat) (v : Word) : (l.land (.write i v)).x = l.x.setCell i v := rfl
@[simp] theorem land_write_answered (l : Link) (i : Nat) (v : Word) : (l.land (.write i v)).answered = l.answered := rfl
@[simp] theorem land_write_host (l : Link) (i : Nat) (v : Word) :
    (l.land (.write i v)).host = l.host.after l.x (.write i v) := rfl
@[simp] theorem land_write_sending (l : Link) (i : Nat) (v : Word) :
    (l.land (.write i v)).sending = l.sendingAfter (.write i v) := rfl
@[simp] theorem land_read_x (l : Link) (i : Nat) : (l.land (.read i)).x = l.x := by
  simp only [Link.land]; split <;> rfl
@[simp] theorem land_rendezvous (l : Link) (a : HostAccess) : (l.land a).rendezvous = l.rendezvous := by
  cases a <;> simp only [Link.land]
  split <;> rfl

@[simp] theorem after_hw (e : Env) (hw : Hardware) : (e.after hw).hw = hw := rfl
@[simp] theorem after_script (e : Env) (hw : Hardware) : (e.after hw).script = e.script.tail := rfl
@[simp] theorem after_draws (e : Env) (hw : Hardware) : (e.after hw).draws = e.draws + 1 := rfl

@[simp] theorem marked_fault (r : Fault) (s : State) : (s.marked r).fault = some r := rfl

@[simp] theorem launch_control (t : List (Option Handler)) (p : List Word) (e : Env) (h : Transport) :
    (State.launch t p e h).x.control = 0x0000 := rfl
@[simp] theorem launch_payload (t : List (Option Handler)) (p : List Word) (e : Env) (h : Transport) :
    (State.launch t p e h).x.payload = p := rfl
@[simp] theorem launch_T (t : List (Option Handler)) (p : List Word) (e : Env) (h : Transport) :
    (State.launch t p e h).T = t := rfl
@[simp] theorem launch_E (t : List (Option Handler)) (p : List Word) (e : Env) (h : Transport) :
    (State.launch t p e h).E = e := rfl
@[simp] theorem launch_H (t : List (Option Handler)) (p : List Word) (e : Env) (h : Transport) :
    (State.launch t p e h).H = h := rfl

@[simp] theorem placeImage_control_control (s : State) (w : Word) : (placeImage s (.control w)).x.control = w := rfl
@[simp] theorem placeImage_port_port (s : State) (bs : List Byte) : (placeImage s (.port bs)).port = bs := rfl

end Sys2Proof.Machine
end

