-- ==== Sys2Proof/Laws/Cells.lean ====
section
/-! SUPPORT. The laws of the register file: read after write, every other cell kept, and that no operation on cells
changes how many there are. -/

namespace Sys2Proof.Machine

/-- A cell exists exactly below `N`. -/
theorem cell?_isSome (x : RegFile) (i : Nat) : (x.cell? i).isSome ↔ i < x.size := by
  cases i <;> simp [RegFile.cell?, RegFile.size]

@[simp] theorem size_setCell (x : RegFile) (i : Nat) (v : Word) : (x.setCell i v).size = x.size := by
  cases i <;> simp [RegFile.setCell, RegFile.size]

theorem cell?_setCell_self (x : RegFile) (i : Nat) (v : Word) (h : i < x.size) : (x.setCell i v).cell? i = some v := by
  cases i with
  | zero => rfl
  | succ k =>
    have hk : k < x.payload.length := by simpa [RegFile.size] using h
    simp [RegFile.cell?, hk]

theorem cell?_setCell_other (x : RegFile) (i j : Nat) (v : Word) (h : i ≠ j) : (x.setCell i v).cell? j = x.cell? j := by
  cases i with
  | zero =>
    cases j with
    | zero => exact absurd rfl h
    | succ k => rfl
  | succ k =>
    cases j with
    | zero => rfl
    | succ l => simp [RegFile.cell?, List.getElem?_set_ne (by omega : k ≠ l)]

@[simp] theorem size_memWrite (x : RegFile) (a : Nat) (cs : List Word) : (x.memWrite a cs).size = x.size := by
  induction cs generalizing x a with
  | nil => rfl
  | cons c cs ih => simp [RegFile.memWrite, ih]

@[simp] theorem control_memWrite (x : RegFile) (k : Nat) (cs : List Word) :
    (x.memWrite (k + 1) cs).control = x.control := by
  induction cs generalizing x k with
  | nil => rfl
  | cons c cs ih => simp [RegFile.memWrite, ih]

/-- Writing the payload cells from `x[k+1]` writes them in place and keeps every other one. -/
theorem payload_memWrite (x : RegFile) (k : Nat) (cs : List Word) (h : k + cs.length ≤ x.payload.length) :
    (x.memWrite (k + 1) cs).payload = x.payload.take k ++ cs ++ x.payload.drop (k + cs.length) := by
  induction cs generalizing x k with
  | nil => simp [RegFile.memWrite]
  | cons c cs ih =>
    simp only [List.length_cons] at h
    have hk : k < x.payload.length := by omega
    rw [RegFile.memWrite, ih _ _ (by simp; omega)]
    simp only [setCell_succ_payload, List.length_cons]
    rw [List.take_set, List.drop_set_of_lt (by omega), List.take_add_one, List.set_append_right _ _ (by simp)]
    simp [hk, List.append_assoc, Nat.min_eq_left (Nat.le_of_lt hk), Nat.add_comm 1, Nat.add_assoc]

/-- Reading payload cells from `x[k+1]`, all of them present. -/
theorem memRead_payload (x : RegFile) (k n : Nat) (h : k + n ≤ x.payload.length) :
    x.memRead (k + 1) n = (x.payload.drop k).take n := by
  induction n generalizing k with
  | zero => simp [RegFile.memRead]
  | succ n ih =>
    have hk : k < x.payload.length := by omega
    have hg : x.getCell (k + 1) = x.payload[k] := by simp [RegFile.getCell, RegFile.cell?, hk]
    rw [RegFile.memRead, ih _ (by omega), List.drop_eq_getElem_cons hk, List.take_succ_cons, hg]

@[simp] theorem length_memRead (x : RegFile) (a n : Nat) : (x.memRead a n).length = n := by
  induction n generalizing a with
  | zero => rfl
  | succ n ih => simp [RegFile.memRead, ih]

/-- What one host access can do: nothing, or, if the host has the move, what landing it does. -/
theorem applyAccess_cases (l : Link) (a : HostAccess) :
    (l.allows a = false ∧ applyAccess l a = l) ∨ (l.allows a = true ∧ applyAccess l a = l.land a) := by
  cases h : l.allows a <;> simp [applyAccess, h]

@[simp] theorem size_land (l : Link) (a : HostAccess) : (l.land a).x.size = l.x.size := by
  cases a <;> simp

/-- No host access changes the number of cells. -/
@[simp] theorem size_applyAccesses (l : Link) (as : List HostAccess) : (applyAccesses l as).x.size = l.x.size := by
  induction as generalizing l with
  | nil => rfl
  | cons a as ih =>
    simp only [applyAccesses, List.foldl_cons] at ih ⊢
    rw [ih]
    rcases applyAccess_cases l a with ⟨_, h⟩ | ⟨_, h⟩ <;> simp [h]

@[simp] theorem rendezvous_applyAccesses (l : Link) (as : List HostAccess) :
    (applyAccesses l as).rendezvous = l.rendezvous := by
  induction as generalizing l with
  | nil => rfl
  | cons a as ih =>
    simp only [applyAccesses, List.foldl_cons] at ih ⊢
    rw [ih]
    rcases applyAccess_cases l a with ⟨_, h⟩ | ⟨_, h⟩ <;> simp [h]

@[simp] theorem size_polled (s : State) : s.polled.x.size = s.x.size := by simp [State.polled]

@[simp] theorem rendezvous_polled (s : State) : s.polled.rendezvous = s.H.rendezvous := by simp [State.polled]

theorem applyAccesses_append (l : Link) (as bs : List HostAccess) :
    applyAccesses l (as ++ bs) = applyAccesses (applyAccesses l as) bs := by
  simp [applyAccesses]

/-- A cell that no access writes is as it was. -/
theorem cell?_applyAccesses (l : Link) (as : List HostAccess) (i : Nat) (h : ∀ u, HostAccess.write i u ∉ as) :
    (applyAccesses l as).x.cell? i = l.x.cell? i := by
  induction as generalizing l with
  | nil => rfl
  | cons a as ih =>
    have := ih (applyAccess l a) (fun u hu => h u (List.mem_cons_of_mem _ hu))
    simp only [applyAccesses, List.foldl_cons] at this ⊢
    rw [this]
    rcases applyAccess_cases l a with ⟨_, e⟩ | ⟨_, e⟩ <;> rw [e]
    cases a with
    | read j => simp
    | write j v => exact cell?_setCell_other _ _ _ _ (fun e => h v (by simp [e]))

end Sys2Proof.Machine
end

