-- ==== Sys2Proof/Laws/Process.lean ====
section
/-! SUPPORT. What one request can do, said once: the ways `serveRequest` answers, and that every command is one. -/

namespace Sys2Proof.Machine

/-- Every instruction that serves a request serves it by `serveRequest`. -/
theorem exec_eq_serveRequest {s : State} {i : Instr} {code argc : Byte} (h : request s i = some (code, argc)) :
    exec i s = serveRequest code argc s := by
  cases i <;> simp only [request, Option.some.injEq, Prod.mk.injEq, reduceCtorEq] at h
  all_goals (obtain ⟨rfl, rfl⟩ := h; rfl)

/-- A handler call that returns: what it returns is what the handler answers. -/
theorem call_of_returns {e : Env} {bs : List Byte} {leaves : Option Hardware} (h : Handler) (args : List Byte)
    (he : e.answer = .returns bs leaves) :
    call h args e = .returns (handle h args e).1 (e.after (handle h args e).2) := by
  simp only [call, he]

/-- A handler call never returns exactly when the environment answers so. -/
theorem call_hangs_iff (h : Handler) (args : List Byte) (e : Env) : call h args e = .hangs ↔ e.answer = .hangs := by
  cases he : e.answer <;> simp [call, he]

/-- If a request is served, its code is a request's, its bytes fit, its handler returned and the result fits; and then
only `E` and `x` change. -/
theorem serveRequest_next {code argc : Byte} {s t : State} (h : serveRequest code argc s = .next t) :
    ∃ args hd res env, code ≠ 0 ∧ operands s.x argc = some args ∧ s.T[code.toNat]? = some (some hd) ∧
      call hd args s.E = .returns res env ∧ ceilHalf res.length ≤ s.x.size - 1 ∧
      t = { s with E := env, x := s.x.respond res } := by
  unfold serveRequest raise at h
  split at h
  · cases h
  · rename_i hc
    split at h
    · cases h
    · rename_i args ha
      unfold dispatchCode raise at h
      split at h
      · cases h
      · cases h
      · rename_i hd hT
        unfold callAndRespond raise at h
        split at h
        · cases h
        · rename_i res env hcall
          unfold respond raise at h
          split at h
          · cases h
          · rename_i hf
            cases h
            exact ⟨args, hd, res, env, hc, ha, hT, hcall, Nat.le_of_not_lt hf, rfl⟩

/-- The converse: a request whose code, bytes, handler and result are in order is served. -/
theorem serveRequest_served {code argc : Byte} {s : State} {args res : List Byte} {hd : Handler} {env : Env}
    (hc : code ≠ 0) (ha : operands s.x argc = some args) (hT : s.T[code.toNat]? = some (some hd))
    (hcall : call hd args s.E = .returns res env) (hf : ceilHalf res.length ≤ s.x.size - 1) :
    serveRequest code argc s = .next { s with E := env, x := s.x.respond res } := by
  simp only [serveRequest, if_neg hc, ha, dispatchCode, hT, callAndRespond, hcall, respond, if_neg (Nat.not_lt.mpr hf)]

@[simp] theorem size_respond (x : RegFile) (res : List Byte) : (x.respond res).size = x.size := by
  simp [RegFile.respond]

@[simp] theorem control_respond (x : RegFile) (res : List Byte) :
    (x.respond res).control = encodeControl 0 (BitVec.ofNat 8 res.length) := rfl

/-- The payload cells of a response that fits: the packed result, then the cells as they were. -/
theorem payload_respond (x : RegFile) (res : List Byte) (h : (pack res).length ≤ x.payload.length) :
    (x.respond res).payload = pack res ++ x.payload.drop (pack res).length := by
  have := payload_memWrite x 0 (pack res) (by omega)
  simpa [RegFile.respond] using this

end Sys2Proof.Machine
end

