-- ==== Sys2Proof/Laws/Exec.lean ====
section
/-! SUPPORT. What an instruction and a step can do when they answer a next state, said once. -/

namespace Sys2Proof.Machine

/-- The ways an instruction goes on: it leaves the state, serves a request, writes a result only, polls, or registers. -/
theorem exec_next {i : Instr} {s t : State} (h : exec i s = .next t) :
    (∃ resc, i = .idle resc ∧ t = s) ∨
    (∃ code argc, request s i = some (code, argc) ∧ serveRequest code argc s = .next t) ∨
    (request s i = none ∧ ∃ r, t = { s with result := r }) ∨
    (i = .poll ∧ t = { (pollTransport s).2 with result := .pending (pollTransport s).2.isPending }) ∨
    (∃ code hd, i = .register code hd ∧ code.toNat < s.T.length ∧
      t = { s with T := s.T.set code.toNat (some hd) }) := by
  cases hr : request s i with
  | some p => exact .inr (.inl ⟨p.1, p.2, rfl, (exec_eq_serveRequest hr).symm.trans h⟩)
  | none =>
    cases i <;> simp only [request, reduceCtorEq] at hr
    case idle resc => exact .inl ⟨resc, rfl, by cases h; rfl⟩
    case decodecontrol => cases h; exact .inr (.inr (.inl ⟨rfl, _, rfl⟩))
    case encodecontrol => cases h; exact .inr (.inr (.inl ⟨rfl, _, rfl⟩))
    case unpack =>
      simp only [exec, execUnpack, raise] at h
      split at h <;> cases h
      exact .inr (.inr (.inl ⟨rfl, _, rfl⟩))
    case pack => cases h; exact .inr (.inr (.inl ⟨rfl, _, rfl⟩))
    case poll => cases h; exact .inr (.inr (.inr (.inl ⟨rfl, rfl⟩)))
    case register code hd =>
      simp only [exec, execRegister, raise] at h
      split at h <;> cases h
      exact .inr (.inr (.inr (.inr ⟨code, hd, rfl, ‹_›, rfl⟩)))

/-- What fetch finds, and the state it hands on. -/
theorem fetch_ok {s t : State} {i : Instr} (h : fetch s = .ok (i, t)) :
    (∃ b bs rest, s.port = b :: bs ∧ decodeOperation (b :: bs) = .ok (i, rest) ∧ t = { s with port := rest }) ∨
    (s.port = [] ∧ s.phase = .poll ∧ i = .poll ∧ t = { s with phase := .serve }) ∨
    (s.port = [] ∧ s.phase = .serve ∧ decodeControlWord s.x.control = .ok i ∧ t = { s with phase := .poll }) ∨
    (s.port = [] ∧ s.phase = .serve ∧ (∃ e, decodeControlWord s.x.control = .error e) ∧ i = .process ∧
      t = { s with phase := .poll }) := by
  unfold fetch at h
  split at h
  · rename_i b bs hp
    split at h
    · rename_i j rest hd; cases h; exact .inl ⟨b, bs, rest, hp, hd, rfl⟩
    · cases h
  · rename_i hp
    split at h
    · rename_i hph; cases h; exact .inr (.inl ⟨hp, hph, rfl, rfl⟩)
    · rename_i hph
      split at h
      · rename_i hd; cases h; exact .inr (.inr (.inl ⟨hp, hph, hd, rfl⟩))
      · rename_i e hd; cases h; exact .inr (.inr (.inr ⟨hp, hph, ⟨e, hd⟩, rfl, rfl⟩))

/-- A step that goes on recorded no fault, fetched an instruction and ran it. -/
theorem step_next {s t : State} (h : step s = .next t) :
    s.fault = none ∧ ∃ i u, fetch s = .ok (i, u) ∧ exec i u = .next t := by
  unfold step at h
  split at h
  · cases h
  · rename_i hf
    split at h
    · rename_i i u hfe; exact ⟨hf, i, u, hfe, h⟩
    · cases h

end Sys2Proof.Machine
end

