-- ==== Sys2Proof/Laws/PerInstr.lean ====
section
/-! SUPPORT. Per instruction: its image carries the match value that spec/opcode_table.json gives its row. -/

namespace Sys2Proof.Laws.RowSelect

/-- The row's match value: the high byte of the control word (30_encoding.md R87) or the operation select (R89). -/
def select : Instr → Byte
  | .idle _ => 0
  | .pinmode _ => 1
  | .dwrite _ => 2
  | .dread _ => 3
  | .awrite _ => 5
  | .aread _ => 6
  | .sattach _ => 7
  | .sdetach _ => 8
  | .swrite _ => 9
  | .sread _ => 10
  | .i2cbegin _ => 11
  | .i2cend _ => 12
  | .i2cclock _ => 13
  | .i2cwrite _ => 14
  | .i2cread _ => 15
  | .spibegin _ => 16
  | .spiset _ => 17
  | .spixfer _ => 18
  | .spiend _ => 19
  | .decodecontrol _ => 0
  | .encodecontrol _ _ => 1
  | .unpack _ _ => 2
  | .pack _ => 3
  | .poll => 4
  | .process => 5
  | .register _ _ => 6

/-- The image of the instruction carries its row's match value in the row's fixed bits. -/
def Statement (i : Instr) : Prop :=
  match encode i with
  | .control w => Machine.hiByte w = select i
  | .port bytes => bytes.head? = some (select i)

theorem idle (resc : Byte) : Statement (.idle resc) := Machine.hiByte_joinBytes _ _

theorem pinmode (argc : Byte) : Statement (.pinmode argc) := Machine.hiByte_joinBytes _ _

theorem dwrite (argc : Byte) : Statement (.dwrite argc) := Machine.hiByte_joinBytes _ _

theorem dread (argc : Byte) : Statement (.dread argc) := Machine.hiByte_joinBytes _ _

theorem awrite (argc : Byte) : Statement (.awrite argc) := Machine.hiByte_joinBytes _ _

theorem aread (argc : Byte) : Statement (.aread argc) := Machine.hiByte_joinBytes _ _

theorem sattach (argc : Byte) : Statement (.sattach argc) := Machine.hiByte_joinBytes _ _

theorem sdetach (argc : Byte) : Statement (.sdetach argc) := Machine.hiByte_joinBytes _ _

theorem swrite (argc : Byte) : Statement (.swrite argc) := Machine.hiByte_joinBytes _ _

theorem sread (argc : Byte) : Statement (.sread argc) := Machine.hiByte_joinBytes _ _

theorem i2cbegin (argc : Byte) : Statement (.i2cbegin argc) := Machine.hiByte_joinBytes _ _

theorem i2cend (argc : Byte) : Statement (.i2cend argc) := Machine.hiByte_joinBytes _ _

theorem i2cclock (argc : Byte) : Statement (.i2cclock argc) := Machine.hiByte_joinBytes _ _

theorem i2cwrite (argc : Byte) : Statement (.i2cwrite argc) := Machine.hiByte_joinBytes _ _

theorem i2cread (argc : Byte) : Statement (.i2cread argc) := Machine.hiByte_joinBytes _ _

theorem spibegin (argc : Byte) : Statement (.spibegin argc) := Machine.hiByte_joinBytes _ _

theorem spiset (argc : Byte) : Statement (.spiset argc) := Machine.hiByte_joinBytes _ _

theorem spixfer (argc : Byte) : Statement (.spixfer argc) := Machine.hiByte_joinBytes _ _

theorem spiend (argc : Byte) : Statement (.spiend argc) := Machine.hiByte_joinBytes _ _

theorem decodecontrol (cell : Word) : Statement (.decodecontrol cell) := rfl

theorem encodecontrol (code count : Byte) : Statement (.encodecontrol code count) := rfl

theorem unpack (cells : List Word) (length : Byte) : Statement (.unpack cells length) := rfl

theorem pack (bytes : List Byte) : Statement (.pack bytes) := rfl

theorem poll : Statement (.poll) := rfl

theorem process : Statement (.process) := rfl

theorem register (code : Byte) (handler : Handler) : Statement (.register code handler) := rfl

end Sys2Proof.Laws.RowSelect
end

