-- ==== Sys2Proof/Tests/Slice0.lean ====
section
/-! SUPPORT. Tests against the vectors of spec/95_test_vectors.md and the encodings of spec/30_encoding.md, the ill-formed
terms the well-formedness checks refuse, and a witness for the hypotheses of each statement. -/

namespace Sys2Proof.Tests

open Sys2Proof.Machine

/-! ### Helpers -/

/-- A small machine: the control word, the payload cells, and the answer of the hardware; `T0`, and a quiet host. -/
def small (control : Word) (payload : List Word) (answer : Answer) : State :=
  { State.launch Config.t0 payload { Env.reset with answer := answer } Transport.reset with
    x := { control := control, payload := payload } }

/-- A machine with one custom handler, at code 20, and the host's batches to come. -/
def custom (control : Word) (payload : List Word) (bs : List Byte) (queue : List Batch) : State :=
  { small control payload (.returns bs none) with
    T := Config.t0.set 20 (some (.custom 7))
    H := { Transport.reset with queue := queue } }

/-- The outcome goes on, to a state with the property. -/
def goesOn (o : Host.Outcome State Fault Refusal) (p : State → Bool) : Bool :=
  match o with
  | .next t => p t
  | .fault _ => false
  | .refused _ => false

/-- The outcome is the fault. -/
def faults (o : Host.Outcome State Fault Refusal) (r : Fault) : Bool :=
  match o with
  | .next _ => false
  | .fault q => q == r
  | .refused _ => false

/-- Hardware with a servo attached to pin 5 at angle 10. -/
def servoAt5 : Hardware := { Hardware.reset with servos := pinPut Hardware.reset.servos 5 (some 10) }

/-- A machine with a servo attached to pin 5 at angle 10. -/
def withServo (control : Word) (payload : List Word) (answer : Answer) : State :=
  { small control payload answer with E := { Env.reset with hw := servoAt5, answer := answer } }

/-- A host outside the rendezvous. -/
def outside (s : State) : State := { s with H := { s.H with rendezvous := false } }

/-- A host that has seen Idle, and has written and asked for nothing yet. -/
def sawIdle (s : State) : State :=
  { s with H := { s.H with host := { sawIdle := true, asked := false, covered := 0, wrote := 0 } } }

/-- A host that has asked, and has not yet read `x[0]` since. -/
def hasAsked (s : State) : State :=
  { s with H := { s.H with host := { sawIdle := false, asked := true, covered := 0, wrote := 0 } } }

/-! ### Ill-formed terms -/

theorem test_wf_refuses_long_pack : (Instr.pack (List.replicate 256 0)).wf = false := by decide +kernel
theorem test_wf_refuses_long_unpack : (Instr.unpack (List.replicate 256 0) 0).wf = false := by decide +kernel
theorem test_wf_refuses_reserved_custom : (Instr.register 20 (.custom 0xFF04)).wf = false := by decide
theorem test_wf_accepts_pack_255 : (Instr.pack (List.replicate 255 0)).wf = true := by decide +kernel

/-! ### Words written out from 30_encoding.md R81, R82, R87, R89 -/

theorem test_word_idle : decodeControlWord 0b00000000_00000010#16 = .ok (.idle 2) := by decide
theorem test_word_pinmode : decodeControlWord 0b00000001_00000010#16 = .ok (.pinmode 2) := by decide
theorem test_word_dwrite : decodeControlWord 0b00000010_00000010#16 = .ok (.dwrite 2) := by decide
theorem test_word_dread : decodeControlWord 0b00000011_00000001#16 = .ok (.dread 1) := by decide
theorem test_word_awrite : decodeControlWord 0b00000101_00000011#16 = .ok (.awrite 3) := by decide
theorem test_word_aread : decodeControlWord 0b00000110_00000001#16 = .ok (.aread 1) := by decide
theorem test_word_sattach : decodeControlWord 0b00000111_00000001#16 = .ok (.sattach 1) := by decide
theorem test_word_sdetach : decodeControlWord 0b00001000_00000001#16 = .ok (.sdetach 1) := by decide
theorem test_word_swrite : decodeControlWord 0b00001001_00000010#16 = .ok (.swrite 2) := by decide
theorem test_word_sread : decodeControlWord 0b00001010_00000001#16 = .ok (.sread 1) := by decide
theorem test_word_i2cbegin : decodeControlWord 0b00001011_00000000#16 = .ok (.i2cbegin 0) := by decide
theorem test_word_i2cend : decodeControlWord 0b00001100_00000000#16 = .ok (.i2cend 0) := by decide
theorem test_word_i2cclock : decodeControlWord 0b00001101_00000100#16 = .ok (.i2cclock 4) := by decide
theorem test_word_i2cwrite : decodeControlWord 0b00001110_00000011#16 = .ok (.i2cwrite 3) := by decide
theorem test_word_i2cread : decodeControlWord 0b00001111_00000011#16 = .ok (.i2cread 3) := by decide
theorem test_word_spibegin : decodeControlWord 0b00010000_00000000#16 = .ok (.spibegin 0) := by decide
theorem test_word_spiset : decodeControlWord 0b00010001_00000110#16 = .ok (.spiset 6) := by decide
theorem test_word_spixfer : decodeControlWord 0b00010010_00000011#16 = .ok (.spixfer 3) := by decide
theorem test_word_spiend : decodeControlWord 0b00010011_00000000#16 = .ok (.spiend 0) := by decide
theorem test_word_code4 : decodeControlWord 0x0400 = .error (.noRow 4) := by decide
theorem test_word_bit15 : decodeControlWord 0x8000 = .error (.noRow 128) := by decide
theorem test_op_decodecontrol : decodeTableWord 8 0b000 = some (.decodecontrol 0) := by decide
theorem test_op_encodecontrol : decodeTableWord 8 0b001 = some (.encodecontrol 0 0) := by decide
theorem test_op_unpack : decodeTableWord 8 0b010 = some (.unpack [] 0) := by decide
theorem test_op_pack : decodeTableWord 8 0b011 = some (.pack []) := by decide
theorem test_op_poll : decodeTableWord 8 0b100 = some .poll := by decide
theorem test_op_process : decodeTableWord 8 0b101 = some .process := by decide
theorem test_op_register : decodeTableWord 8 0b110 = some (.register 0 (.custom 0)) := by decide
theorem test_op_unassigned : decodeTableWord 8 0b111 = none := by decide

/-- V80 to V86: MAXBYTES for N = 1, 2, 3, 20, 100, 128, 129. -/
theorem test_maxBytes :
    [0, 1, 2, 19, 99, 127, 128].map (fun n => RegFile.maxBytes { control := 0, payload := List.replicate n 0 })
      = [0, 2, 4, 38, 198, 254, 255] := by decide

/-! ### The codec: V1 to V28 -/

theorem test_pack_odd : pack [0x12, 0x34, 0x56, 0x78, 0x9A] = [0x1234, 0x5678, 0x9A00] := by decide
theorem test_unpack_ignores_filler : unpack [0x0102, 0x03AB] 3 = some [0x01, 0x02, 0x03] := by decide
theorem test_unpack_short : unpack [0xABCD] 3 = none := by decide
theorem test_decodecontrol :
    goesOn (exec (.decodecontrol 0x8000) (small 0 [] .hangs)) (fun t => t.result == .codeCount 128 0) = true := by decide
theorem test_encodecontrol :
    goesOn (exec (.encodecontrol 9 2) (small 0 [] .hangs)) (fun t => t.result == .cell 0x0902) = true := by decide
theorem test_unpack_op :
    goesOn (exec (.unpack [0xABCD, 0xEF01, 0x2345] 4) (small 0 [] .hangs))
      (fun t => t.result == .bytes [0xAB, 0xCD, 0xEF, 0x01]) = true := by decide
theorem test_pack_op :
    goesOn (exec (.pack [0, 0, 0]) (small 0 [] .hangs)) (fun t => t.result == .cells [0, 0]) = true := by decide

/-! ### POLL: V31, V33, V35 -/

theorem test_poll_idle_low_byte :
    goesOn (exec .poll (custom 0x00FF [0] [] [{ accesses := [], newData := true }]))
      (fun t => t.result == .pending false) = true := by decide
theorem test_poll_payload_write_is_no_request :
    goesOn (exec .poll (custom 0x0000 [0, 0] [] [{ accesses := [.write 2 0xFFFF], newData := true }]))
      (fun t => t.result == .pending false && t.x.payload == [0, 0xFFFF]) = true := by decide

/-! ### PROCESS: V40 to V54, and P5 -/

/-- V46: 255 bytes in, 255 bytes out, on 129 cells. -/
theorem test_process_maximum :
    goesOn (exec .process (custom 0x14FF (List.replicate 128 0xFFAB) (List.replicate 255 0xFF) []))
      (fun t => t.x.control == 0x00FF && t.x.payload[126]? == some 0xFFFF && t.x.payload[127]? == some 0xFF00) = true := by
  decide +kernel
/-- V48: a count of 199 on 100 cells. -/
theorem test_process_argRange :
    faults (exec .process (custom 0x14C7 (List.replicate 99 0) [] [])) (.argRange 199) = true := by decide
/-- V53: N = 3, code 4 and a count of 255: ArgRange comes first. -/
theorem test_order_argRange_first :
    faults (exec .process (small 0x04FF [0, 0] (.returns [] none))) (.argRange 255) = true := by decide
/-- V50. -/
theorem test_code4_unregistered :
    faults (exec .process (small 0x0400 [0] (.returns [] none))) (.unregisteredCode 4) = true := by decide
/-- V52. -/
theorem test_process_while_idle :
    faults (exec .process (small 0x0003 [0] (.returns [] none))) (.processWhileIdle 0x0003) = true := by decide
/-- P5 d. -/
theorem test_resRange :
    faults (exec .process (custom 0x1400 [0, 0] [1, 2, 3, 4, 5] [])) (.resRange 5) = true := by decide
/-- V54. -/
theorem test_hang :
    faults (exec (.sattach 1) (small 0x0701 [0x0500] .hangs)) .handlerHang = true := by decide
/-- P4, step 6: three result bytes over five argument bytes. -/
theorem test_custom_stale_cell :
    goesOn (exec .process (custom 0x1405 [0x10F5, 0x0301, 0x80AA] [0x89, 0x67, 0x05] []))
      (fun t => t.x == { control := 0x0003, payload := [0x8967, 0x0500, 0x80AA] }) = true := by decide
/-- V56: a canonical handler replaced. -/
theorem test_register_replaces :
    goesOn (exec (.register 3 (.custom 7)) (small 0x0301 [0x07C3] (.returns [] none)))
      (fun t => t.T[3]? == some (some (.custom 7)) && t.x.control == 0x0301) = true := by decide +kernel
/-- A table of three entries: TableRange. -/
theorem test_tableRange :
    faults (exec (.register 3 (.custom 7)) { small 0 [] .hangs with T := [none, none, none] }) (.tableRange 3) = true := by
  decide

/-! ### The commands: V41 to V45, V60 to V78 -/

theorem test_idle : goesOn (exec (.idle 2) (small 0x0002 [1] .hangs)) (fun t => t.x.control == 0x0002) = true := by decide
/-- V43. -/
theorem test_pinmode :
    goesOn (exec (.pinmode 2) (small 0x0102 [0x0D01] (.returns [] (some Hardware.reset))))
      (fun t => t.x == { control := 0, payload := [0x0D01] } && pinGet t.E.hw.pinModes 13 == some 1) = true := by decide
/-- V44. -/
theorem test_pinmode_mismatch :
    goesOn (exec (.pinmode 1) (small 0x0101 [0x0D00] (.returns [] (some Hardware.reset))))
      (fun t => t.x == { control := 0, payload := [0x0D00] } && pinGet t.E.hw.pinModes 13 == none) = true := by decide
theorem test_dwrite :
    goesOn (exec (.dwrite 2) (small 0x0202 [0x0D01] (.returns [] (some Hardware.reset))))
      (fun t => t.x.control == 0 && pinGet t.E.hw.digitalOut 13 == some 1) = true := by decide
/-- V41. -/
theorem test_dread :
    goesOn (exec (.dread 1) (small 0x0301 [0x07C3] (.returns [0x01] (some Hardware.reset))))
      (fun t => t.x == { control := 0x0001, payload := [0x0100] }) = true := by decide
/-- V45. -/
theorem test_dread_mismatch :
    goesOn (exec (.dread 3) (small 0x0303 [0x0708, 0x0900] (.returns [0x01] (some Hardware.reset))))
      (fun t => t.x == { control := 0x0000, payload := [0x0708, 0x0900] }) = true := by decide
/-- V64. -/
theorem test_awrite :
    goesOn (exec (.awrite 3) (small 0x0503 [0x0901, 0x23AA] (.returns [] (some Hardware.reset))))
      (fun t => t.x.control == 0 && pinGet t.E.hw.analogOut 9 == some 0x0123) = true := by decide
/-- V42. -/
theorem test_aread :
    goesOn (exec (.aread 1) (small 0x0601 [0x0E00, 0x5555] (.returns [0x02, 0xA7] (some Hardware.reset))))
      (fun t => t.x == { control := 0x0002, payload := [0x02A7, 0x5555] }) = true := by decide
/-- P2, step 5. -/
theorem test_sattach :
    goesOn (exec (.sattach 1) (small 0x0701 [0x05AA] (.returns [0x22, 0x00] (some Hardware.reset))))
      (fun t => t.x == { control := 0x0001, payload := [0x2200] } && (pinGet t.E.hw.servos 5).isSome) = true := by decide
theorem test_sattach_failure :
    goesOn (exec (.sattach 1) (small 0x0701 [0x05AA] (.returns [0x00] (some Hardware.reset))))
      (fun t => t.x == { control := 0x0001, payload := [0x0000] } && (pinGet t.E.hw.servos 5).isNone) = true := by decide
theorem test_sdetach :
    goesOn (exec (.sdetach 1) (withServo 0x0801 [0x05AA] (.returns [0x22] (some servoAt5))))
      (fun t => t.x.control == 0x0001 && (pinGet t.E.hw.servos 5).isNone) = true := by decide
/-- S5, P2 step 2: no servo attached. -/
theorem test_swrite_unattached :
    goesOn (exec (.swrite 2) (small 0x0902 [0x055A] (.returns [0x33] (some Hardware.reset))))
      (fun t => t.x == { control := 0x0001, payload := [0x0000] }) = true := by decide
/-- P2, step 8. -/
theorem test_swrite_attached :
    goesOn (exec (.swrite 2) (withServo 0x0902 [0x055A] (.returns [0x33] (some servoAt5))))
      (fun t => t.x == { control := 0x0001, payload := [0x3300] } && pinGet t.E.hw.servos 5 == some 90) = true := by decide
/-- V69. -/
theorem test_sread :
    goesOn (exec (.sread 1) (withServo 0x0A01 [0x05AA] (.returns [] (some servoAt5))))
      (fun t => t.x == { control := 0x0001, payload := [0x0A00] }) = true := by decide
/-- U11: on a mismatch `[]` or `[0]`. -/
theorem test_sread_mismatch :
    goesOn (exec (.sread 0) (withServo 0x0A00 [0x05AA] (.returns [1] (some servoAt5))))
      (fun t => t.x == { control := 0x0001, payload := [0x0000] }) = true := by decide
/-- V40. -/
theorem test_i2cbegin :
    goesOn (exec (.i2cbegin 0) (small 0x0B00 [] (.returns [] (some Hardware.reset))))
      (fun t => t.x.control == 0 && t.E.hw.i2cBegun) = true := by decide
theorem test_i2cend :
    goesOn (exec (.i2cend 0) (small 0x0C00 [] (.returns [] (some Hardware.reset))))
      (fun t => t.x.control == 0 && !t.E.hw.i2cBegun) = true := by decide
/-- V72: 100000. -/
theorem test_i2cclock :
    goesOn (exec (.i2cclock 4) (small 0x0D04 [0x0001, 0x86A0] (.returns [] (some Hardware.reset))))
      (fun t => t.x.control == 0 && t.E.hw.i2cClock == some 100000) = true := by decide
/-- V73. -/
theorem test_i2cwrite :
    goesOn (exec (.i2cwrite 3) (small 0x0E03 [0x686B, 0x00AA] (.returns [] (some Hardware.reset))))
      (fun t => t.x.control == 0 && t.E.hw.bus == [.i2cWrite 0x68 0x6B [0x00]]) = true := by decide
/-- P3, step 5. -/
theorem test_i2cread :
    goesOn (exec (.i2cread 3) (small 0x0F03 [0x683B, 0x02FF, 0xCCCC] (.returns [0x12, 0x34] (some Hardware.reset))))
      (fun t => t.x == { control := 0x0002, payload := [0x1234, 0x02FF, 0xCCCC] }) = true := by decide
theorem test_spibegin :
    goesOn (exec (.spibegin 0) (small 0x1000 [] (.returns [] (some Hardware.reset)))) (fun t => t.E.hw.spiBegun) = true := by decide
/-- V76. -/
theorem test_spiset :
    goesOn (exec (.spiset 6) (small 0x1106 [0x0102, 0x0304, 0x0100] (.returns [] (some Hardware.reset))))
      (fun t => t.x.control == 0 && t.E.hw.spiSettings ==
        some { speed0 := 1, speed1 := 2, speed2 := 3, speed3 := 4, order := 1, mode := 0 }) = true := by decide
/-- 42_commands.md R168's example. -/
theorem test_spixfer :
    goesOn (exec (.spixfer 3) (small 0x1203 [0x0ADE, 0xAD77] (.returns [0x55, 0x66] (some Hardware.reset))))
      (fun t => t.x == { control := 0x0002, payload := [0x5566, 0xAD77] } &&
        t.E.hw.bus == [.spiTransfer 0x0A [0xDE, 0xAD]]) = true := by decide
theorem test_spiend :
    goesOn (exec (.spiend 0) (small 0x1300 [] (.returns [] (some Hardware.reset)))) (fun t => !t.E.hw.spiBegun) = true := by decide

/-! ### Steps -/

theorem test_step_runs_placed_command :
    goesOn (step ((small 0 [0x07C3] (.returns [0x01] none)).withFetchWord 16 0x0301)) (fun t => t.x.control == 0x0001) = true := by
  decide
theorem test_step_runs_placed_operation :
    goesOn (step (State.reset.withFetchWord 8 6)) (fun t => t.T[0]? == some (some (.custom 0))) = true := by decide +kernel

/-! ### Witnesses: for each statement with hypotheses, a state and operands that meet them all -/

theorem witness_DecodeEncodeRoundTrip : (Instr.pack [1, 2, 3]).wf = true ∧ (Instr.unpack [1] 2).wf = true ∧
    (Instr.register 255 (.canonical .spiend)).wf = true := by decide
theorem witness_ControlWordEncodesBack : decodeControlWord 0x13FF = .ok (.spiend 255) := by decide
theorem witness_ControlWordRows : (0x00FF#16).toNat / 256 = 0 ∧ (0x13FF#16).toNat / 256 = (codeOf .spiend).toNat ∧
    (0x0400#16).toNat / 256 = 4 ∧ 20 ≤ (0x1400#16).toNat / 256 := by decide
theorem witness_UnassignedOperationRefused :
    { small 0 [] .hangs with port := [7] }.fault = none ∧ 7 ≤ (7#8).toNat := by decide
theorem witness_PayloadRoundTrip : (List.replicate 255 (1#8)).length ≤ 255 := by decide +kernel
theorem witness_RepackZeroesFiller : ([0x0102#16, 0x03AB#16]).length = ceilHalf 3 ∧
    ([0x0102#16, 0x03AB#16]).length = ceilHalf 4 := by decide
theorem witness_CodecLengths : unpack [0x0102, 0x03AB] 3 = some [1, 2, 3] ∧ ([1#8]).length ≤ 255 := by decide
theorem witness_PackedByteOrder : 0 < ([1#8, 2#8]).length ∧ 1 < ([1#8, 2#8]).length := by decide
theorem witness_UnpackCompletes : ceilHalf (255#8).toNat ≤ (List.replicate 128 (0#16)).length := by decide +kernel
theorem witness_UnpackShortFaults : (List.replicate 127 (0#16)).length < ceilHalf (255#8).toNat := by decide +kernel
theorem witness_PackCompletes : ([1#8]).length % 2 = 1 := by decide
theorem witness_PollDoesNotConsume :
    (custom 0x0301 [0] [] [{ accesses := [], newData := true }, { accesses := [], newData := false }]).H.queue =
      [{ accesses := [], newData := true }, { accesses := [], newData := false }] := by decide
/-- A host in the rendezvous that sees Idle and then writes, and one outside it that writes over a pending request. -/
theorem witness_PollHostWriteLands :
    (custom 0 [0, 0] [] [{ accesses := [.read 0] ++ .write 2 5 :: [.write 0 0x1403], newData := true }]).H.queue =
      [{ accesses := [.read 0] ++ .write 2 5 :: [.write 0 0x1403], newData := true }] ∧
    2 < (custom 0 [0, 0] [] []).x.size ∧ (∀ u, HostAccess.write 2 u ∉ [HostAccess.write 0 0x1403]) ∧
    (applyAccesses (custom 0 [0, 0] [] []).link [.read 0]).allows (.write 2 5) = true ∧
    (applyAccesses (custom 0 [0, 0] [] []).link [.read 0, .write 2 5]).allows (.write 0 0x1403) = true ∧
    (applyAccesses (outside (custom 0x1400 [0, 0] [] [])).link []).allows (.write 0 0x0301) = true := by
  refine ⟨rfl, by decide, ?_, by decide, by decide, by decide⟩
  simp
theorem witness_PollFrame : ∀ u, HostAccess.write 0 u ∉
    (custom 0 [0] [] [{ accesses := [.write 1 5, .read 0], newData := true }]).H.next.accesses := by
  simp [custom, Transport.next]
/-- For the read that is answered, and for the one that is not: a host in the rendezvous with no response to read. -/
theorem witness_PollAnswersRead :
    (custom 0 [7] [] [{ accesses := [.write 1 5] ++ [.read 1], newData := true }]).H.queue =
      [{ accesses := [.write 1 5] ++ [.read 1], newData := true }] ∧ 1 < (custom 0 [7] [] []).x.size ∧
    goesOn (exec .poll (custom 0 [7] [] [{ accesses := [.write 1 5] ++ [.read 1], newData := true }]))
      (fun t => t.H.answered == []) = true ∧
    goesOn (exec .poll (outside (custom 0 [7] [] [{ accesses := [.write 1 5] ++ [.read 1], newData := true }])))
      (fun t => t.H.answered == [(1, 5)]) = true := by decide
/-- 20_memory.md R66 b: an idle read before the host's own request entitles it to no payload cell. -/
theorem test_no_response_before_request :
    goesOn (exec .poll (custom 0x0002 [7] [] [{ accesses := [.read 0, .write 1 5, .write 0 0x1402, .read 1], newData := true }]))
      (fun t => t.H.answered == [(0, 0x0002)] && t.x == { control := 0x1402, payload := [5] }) = true := by decide
/-- 20_memory.md R66 a: a cell written since the idle read that is none of the request's keeps the request back. -/
theorem test_write_outside_request :
    goesOn (exec .poll (custom 0 [7, 7, 7] [] [{ accesses := [.read 0, .write 3 9, .write 0 0x0300], newData := true }]))
      (fun t => t.x == { control := 0, payload := [7, 7, 9] }) = true := by decide
/-- 20_memory.md R66 b: a write of another cell takes no response away. -/
theorem test_response_kept :
    goesOn (exec .poll (hasAsked (custom 0x0004 [1, 2] [] [{ accesses := [.read 0, .write 1 9, .read 2], newData := true }])))
      (fun t => t.H.answered == [(0, 0x0004), (2, 2)]) = true := by decide
/-- 20_memory.md R67: the control word first, in one transaction with its payload cell; a read ends the transaction. -/
theorem test_one_transaction :
    goesOn (exec .poll (custom 0 [7, 7] []
        [{ accesses := [.read 0, .write 0 0x1402, .write 1 9, .write 2 9, .read 0, .write 1 8], newData := true }]))
      (fun t => t.x == { control := 0x1402, payload := [9, 7] }) = true := by decide
/-- 60_exceptions.md R195: no host can cancel a request. -/
theorem test_no_cancel :
    goesOn (exec .poll (outside (custom 0x1402 [7] [] [{ accesses := [.write 0 0x0000, .write 1 9], newData := true }])))
      (fun t => t.x == { control := 0x1402, payload := [9] }) = true := by decide
/-- 20_memory.md R69: HOSTRSP polls on while the high byte is not 0, and takes the count from the word that is Idle. -/
theorem test_hostrsp :
    [(0, 0x1402), (0, 0x0003), (1, 0x0102), (2, 0x03AB)].foldl HostRsp.take .polling = .done [1, 2, 3] := by decide
theorem witness_RendezvousKeepsRequest :
    (custom 0x0301 [0] [] [{ accesses := [.read 0, .write 1 3, .write 0 0], newData := false }]).isPending = true ∧
    (custom 0x0301 [0] [] []).H.rendezvous = true ∧
    (outside (custom 0x0301 [0] [] [{ accesses := [.read 0, .read 0], newData := false }])).isPending = true ∧
    (outside (custom 0x0301 [0] [] [])).link.keeps [.read 0, .read 0] = true := by decide
theorem witness_ProcessIsItsCommand : 256 ≤ (small 0x0301 [0] .hangs).x.control.toNat ∧
    decodeControlWord (small 0x0301 [0] .hangs).x.control = .ok (.dread 1) := by decide
theorem witness_RequestServed :
    request (custom 0x1403 [0x0102, 0x03AB] [9, 8, 7, 6] []) .process = some (20, 3) ∧ (20#8) ≠ 0 ∧
    ([1#8, 2#8, 3#8]).length = (3#8).toNat ∧ (custom 0x1403 [0x0102, 0x03AB] [9, 8, 7, 6] []).hasArgs [1, 2, 3] ∧
    (custom 0x1403 [0x0102, 0x03AB] [9, 8, 7, 6] []).T[(20#8).toNat]? = some (some (.custom 7)) ∧
    (custom 0x1403 [0x0102, 0x03AB] [9, 8, 7, 6] []).E.answer = .returns [9, 8, 7, 6] none ∧
    (handle (.custom 7) [1, 2, 3] (custom 0x1403 [0x0102, 0x03AB] [9, 8, 7, 6] []).E).1.length ≤
      2 * ((custom 0x1403 [0x0102, 0x03AB] [9, 8, 7, 6] []).x.size - 1) := by decide
/-- The two frames over a served request. -/
theorem witness_ServeFrame : request (small 0x0301 [0x07C3] (.returns [1] none)) (.dread 1) = some (3, 1) ∧
    goesOn (exec (.dread 1) (small 0x0301 [0x07C3] (.returns [1] none)))
      (fun t => t.x.control.toNat % 2 == 1 && ceilHalf t.x.control.toNat == 1) = true := by decide
theorem witness_HighByteZeroAfterProcess :
    request (custom 0x14FF (List.replicate 128 0) (List.replicate 255 1) []) .process = some (20, 255) ∧
    goesOn (exec .process (custom 0x14FF (List.replicate 128 0) (List.replicate 255 1) []))
      (fun t => t.x.control.toNat == 255) = true := by decide +kernel
/-- Two codes with one handler, and states that differ in the filler and in a later cell. -/
theorem witness_HandlerSeesOnlyItsArguments :
    request (custom 0x1401 [0x0700, 1] [9] []) .process = some (20, 1) ∧
    request { custom 0x0301 [0x07FF, 2] [9] [] with T := Config.t0.set 3 (some (.custom 7)) } (.dread 1) = some (3, 1) ∧
    (custom 0x1401 [0x0700, 1] [9] []).hasArgs [7] ∧ (custom 0x0301 [0x07FF, 2] [9] []).hasArgs [7] ∧
    (custom 0x1401 [0x0700, 1] [9] []).E = (custom 0x0301 [0x07FF, 2] [9] []).E ∧
    (custom 0x1401 [0x0700, 1] [9] []).x.size = (custom 0x0301 [0x07FF, 2] [9] []).x.size ∧
    (custom 0x1401 [0x0700, 1] [9] []).T[(20#8).toNat]? = (Config.t0.set 3 (some (Handler.custom 7)))[(3#8).toNat]? ∧
    goesOn (exec .process (custom 0x1401 [0x0700, 1] [9] [])) (fun _ => true) = true := by
  refine ⟨by decide, by decide, by decide, by decide, rfl, by decide, by decide, by decide⟩
theorem witness_ProcessWhileIdleFaults : (small 0x00FF [] .hangs).x.control.toNat < 256 := by decide
theorem witness_ArgRangeFaults : request (small 0x0403 [0] .hangs) .process = some (4, 3) ∧
    2 * ((small 0x0403 [0] .hangs).x.size - 1) < (3#8).toNat := by decide
theorem witness_UnregisteredCodeFaults : request (small 0x0402 [0] .hangs) .process = some (4, 2) ∧
    (2#8).toNat ≤ 2 * ((small 0x0402 [0] .hangs).x.size - 1) ∧ (small 0x0402 [0] .hangs).T[(4#8).toNat]? = some none := by decide
theorem witness_HandlerHangStops : request (small 0x0701 [0x0500] .hangs) (.sattach 1) = some (7, 1) ∧
    (1#8).toNat ≤ 2 * ((small 0x0701 [0x0500] .hangs).x.size - 1) ∧
    (small 0x0701 [0x0500] .hangs).T[(7#8).toNat]? = some (some (.canonical .sattach)) ∧
    (small 0x0701 [0x0500] .hangs).E.answer = .hangs := by decide
theorem witness_ResRangeFaults : request (custom 0x1400 [0] [1, 2, 3] []) .process = some (20, 0) ∧
    (custom 0x1400 [0] [1, 2, 3] []).hasArgs [] ∧
    (custom 0x1400 [0] [1, 2, 3] []).T[(20#8).toNat]? = some (some (.custom 7)) ∧
    (custom 0x1400 [0] [1, 2, 3] []).E.answer = .returns [1, 2, 3] none ∧
    2 * ((custom 0x1400 [0] [1, 2, 3] []).x.size - 1) < (handle (.custom 7) [] (custom 0x1400 [0] [1, 2, 3] []).E).1.length := by
  decide
/-- A state for each clause: 256 entries; three entries and code 3, by REGISTER and by a request. -/
theorem witness_TableRangeFaults : (small 0 [] .hangs).T.length = 256 ∧
    { small 0x0300 [] .hangs with T := [none, none, none] }.T.length ≤ (3#8).toNat ∧
    request { small 0x0300 [] .hangs with T := [none, none, none] } .process = some (3, 0) ∧
    (0#8).toNat ≤ 2 * ({ small 0x0300 [] .hangs with T := [none, none, none] }.x.size - 1) := by decide +kernel
theorem witness_HostDutiesSuffice : request (small 0x1300 [] .hangs) .process = some (19, 0) ∧
    (small 0x1300 [] .hangs).canServe 19 0 = true ∧ (custom 0x14FF (List.replicate 128 0) [] []).canServe 20 255 = true := by decide +kernel
theorem witness_RegisterCompletes : (255#8).toNat < (small 0 [] .hangs).T.length := by decide +kernel
theorem witness_RegistrationSeenByProcess : (99#8).toNat < (small 0x6301 [0x0500] (.returns [1] none)).T.length ∧
    request (small 0x6301 [0x0500] (.returns [1] none)) .process = some (99, 1) ∧
    ([5#8]).length = (1#8).toNat ∧ (small 0x6301 [0x0500] (.returns [1] none)).hasArgs [5] ∧
    (small 0x6301 [0x0500] (.returns [1] none)).E.answer = .returns [1] none ∧
    (handle (.custom 7) [5] (small 0x6301 [0x0500] (.returns [1] none)).E).1.length ≤
      2 * ((small 0x6301 [0x0500] (.returns [1] none)).x.size - 1) := by decide +kernel
theorem witness_PinmodeAndDwriteSetPin :
    (small 0x0102 [0x0D01] (.returns [] none)).hasArgs [13, 1] ∧
    (small 0x0102 [0x0D01] (.returns [] none)).T[1]? = some (some (.canonical .pinmode)) ∧
    (small 0x0202 [0x0D01] (.returns [] none)).hasArgs [13, 1] ∧
    (small 0x0202 [0x0D01] (.returns [] none)).T[2]? = some (some (.canonical .dwrite)) ∧
    (small 0x0202 [0x0D01] (.returns [] none)).E.answer = .returns [] none ∧
    (small 0x0102 [0x0D01] (.returns [] none)).E.answer = .returns [] none := by decide
theorem witness_PinReadsReturnBytes :
    (small 0x0301 [0x07C3] (.returns [1] none)).hasArgs [7] ∧
    (small 0x0301 [0x07C3] (.returns [1] none)).T[3]? = some (some (.canonical .dread)) ∧
    (small 0x0601 [0x07C3] (.returns [1] none)).hasArgs [7] ∧
    (small 0x0601 [0x07C3] (.returns [1] none)).T[6]? = some (some (.canonical .aread)) ∧
    (small 0x0601 [0x07C3] (.returns [1] none)).E.answer = .returns [1] none ∧
    (small 0x0301 [0x07C3] (.returns [1] none)).E.answer = .returns [1] none := by decide
theorem witness_AwriteWritesValue :
    (small 0x0503 [0x0901, 0x23AA] (.returns [] none)).hasArgs [9, 0x01, 0x23] ∧
    (small 0x0503 [0x0901, 0x23AA] (.returns [] none)).T[5]? = some (some (.canonical .awrite)) ∧
    (small 0x0503 [0x0901, 0x23AA] (.returns [] none)).E.answer = .returns [] none := by decide
/-- A failure and a success of each of the two. -/
theorem witness_ServoAttachDetach :
    (small 0x0701 [0x05AA] (.returns [0] none)).hasArgs [5] ∧
    (small 0x0701 [0x05AA] (.returns [0] none)).T[7]? = some (some (.canonical .sattach)) ∧
    (small 0x0701 [0x05AA] (.returns [0] none)).E.answer = .returns [0] none ∧
    (small 0x0801 [0x05AA] (.returns [0] none)).hasArgs [5] ∧
    (small 0x0801 [0x05AA] (.returns [0] none)).T[8]? = some (some (.canonical .sdetach)) ∧
    (small 0x0801 [0x05AA] (.returns [0] none)).E.answer = .returns [0] none ∧
    (small 0x0701 [0x05AA] (.returns [0] none)).E.byte 0 = 0 ∧ (small 0x0701 [0x05AA] (.returns [9] none)).E.byte 0 ≠ 0 := by decide
theorem witness_ServoWriteReportsStatus :
    (small 0x0902 [0x055A] (.returns [9] none)).hasArgs [5, 90] ∧
    (small 0x0902 [0x055A] (.returns [9] none)).T[9]? = some (some (.canonical .swrite)) ∧
    (small 0x0902 [0x055A] (.returns [9] none)).E.answer = .returns [9] none ∧
    (withServo 0x0902 [0x055A] (.returns [9] none)).hasArgs [5, 90] ∧
    (withServo 0x0902 [0x055A] (.returns [9] none)).E.answer = .returns [9] none ∧
    (withServo 0x0902 [0x055A] (.returns [9] none)).T[9]? = some (some (.canonical .swrite)) ∧
    pinGet (small 0x0902 [0x055A] (.returns [9] none)).E.hw.servos 5 = none ∧
    (pinGet (withServo 0x0902 [0x055A] (.returns [9] none)).E.hw.servos 5).isSome = true := by decide
theorem witness_ServoReadReturnsAngle :
    (withServo 0x0A01 [0x05AA] (.returns [] none)).hasArgs [5] ∧
    (withServo 0x0A01 [0x05AA] (.returns [] none)).T[10]? = some (some (.canonical .sread)) ∧
    (withServo 0x0A01 [0x05AA] (.returns [] none)).E.answer = .returns [] none ∧
    pinGet (withServo 0x0A01 [0x05AA] (.returns [] none)).E.hw.servos 5 = some 10 := by decide
/-- A register file with no payload cell. -/
theorem witness_BusBeginEnd : (small 0x0B00 [] (.returns [] none)).E.answer = .returns [] none ∧
    (small 0x0B00 [] (.returns [] none)).T[11]? = some (some (.canonical .i2cbegin)) ∧
    (small 0x0B00 [] (.returns [] none)).T[12]? = some (some (.canonical .i2cend)) ∧
    (small 0x0B00 [] (.returns [] none)).T[16]? = some (some (.canonical .spibegin)) ∧
    (small 0x0B00 [] (.returns [] none)).T[19]? = some (some (.canonical .spiend)) := by decide
theorem witness_I2cClockBigEndian :
    (small 0x0D04 [0x0001, 0x86A0] (.returns [] none)).hasArgs [0x00, 0x01, 0x86, 0xA0] ∧
    (small 0x0D04 [0x0001, 0x86A0] (.returns [] none)).E.answer = .returns [] none ∧
    (small 0x0D04 [0x0001, 0x86A0] (.returns [] none)).T[13]? = some (some (.canonical .i2cclock)) := by decide
/-- With a data byte, and with none. -/
theorem witness_I2cWriteReturnsNothing :
    (small 0x0E03 [0x686B, 0x00AA] (.returns [] none)).hasArgs [0x68, 0x6B, 0x00] ∧
    (small 0x0E03 [0x686B, 0x00AA] (.returns [] none)).E.answer = .returns [] none ∧
    (small 0x0E02 [0x686B] (.returns [] none)).hasArgs [0x68, 0x6B] ∧
    (small 0x0E02 [0x686B] (.returns [] none)).E.answer = .returns [] none ∧
    (small 0x0E02 [0x686B] (.returns [] none)).T[14]? = some (some (.canonical .i2cwrite)) ∧ (3#8).toNat = ([0#8]).length + 2 ∧
    (2#8).toNat = ([] : List Byte).length + 2 ∧
    (small 0x0E03 [0x686B, 0x00AA] (.returns [] none)).T[14]? = some (some (.canonical .i2cwrite)) := by decide
theorem witness_I2cReadReturnsData :
    (small 0x0F03 [0x683B, 0x02FF] (.returns [1, 2, 3, 4] none)).hasArgs [0x68, 0x3B, 0x02] ∧
    (small 0x0F03 [0x683B, 0x02FF] (.returns [1, 2, 3, 4] none)).T[15]? = some (some (.canonical .i2cread)) ∧
    (small 0x0F03 [0x683B, 0x02FF] (.returns [1, 2, 3, 4] none)).E.answer = .returns [1, 2, 3, 4] none ∧
    ([1#8, 2#8, 3#8, 4#8]).length ≤ 2 * ((small 0x0F03 [0x683B, 0x02FF] (.returns [1, 2, 3, 4] none)).x.size - 1) := by decide
theorem witness_SpiSettingsRecorded :
    (small 0x1106 [0x0102, 0x0304, 0x0100] (.returns [] none)).hasArgs [1, 2, 3, 4, 1, 0] ∧
    (small 0x1106 [0x0102, 0x0304, 0x0100] (.returns [] none)).E.answer = .returns [] none ∧
    (small 0x1106 [0x0102, 0x0304, 0x0100] (.returns [] none)).T[17]? = some (some (.canonical .spiset)) := by decide
/-- With data, and with the chip-select byte alone. -/
theorem witness_SpiTransferReturnsData :
    (small 0x1203 [0x0ADE, 0xAD77] (.returns [0x55, 0x66] none)).hasArgs [0x0A, 0xDE, 0xAD] ∧
    (small 0x1203 [0x0ADE, 0xAD77] (.returns [0x55, 0x66] none)).E.answer = .returns [0x55, 0x66] none ∧
    (3#8).toNat = ([0xDE#8, 0xAD#8]).length + 1 ∧ (1#8).toNat = ([] : List Byte).length + 1 ∧
    (small 0x1201 [0x0ADE] (.returns [] none)).hasArgs [0x0A] ∧
    (small 0x1201 [0x0ADE] (.returns [] none)).E.answer = .returns [] none ∧
    (small 0x1201 [0x0ADE] (.returns [] none)).T[18]? = some (some (.canonical .spixfer)) ∧
    (small 0x1203 [0x0ADE, 0xAD77] (.returns [0x55, 0x66] none)).T[18]? = some (some (.canonical .spixfer)) ∧
    ([0x55#8, 0x66#8]).length ≤ 2 * ((small 0x1203 [0x0ADE, 0xAD77] (.returns [0x55, 0x66] none)).x.size - 1) := by decide
/-- Each command's counts on both sides of its arity. -/
theorem witness_ArityMismatchReturnsNothing :
    (7#8).toNat ≤ 2 * ((small 0 [0, 0, 0, 0] (.returns [] none)).x.size - 1) ∧
    (small 0 [0, 0, 0, 0] (.returns [] none)).E.answer = .returns [] none ∧
    (∀ c : Command, c ∈ [Command.pinmode, .dwrite, .dread, .aread, .awrite, .i2cread, .i2cbegin, .i2cend, .spibegin, .spiend,
        .i2cclock, .spiset, .i2cwrite, .spixfer] →
      (small 0 [0, 0, 0, 0] (.returns [] none)).T[(codeOf c).toNat]? = some (some (.canonical c))) ∧
    (1#8) ≠ 2 ∧ (3#8) ≠ 2 ∧ (0#8) ≠ 1 ∧ (2#8) ≠ 1 ∧ (2#8) ≠ 3 ∧ (4#8) ≠ 3 ∧ (1#8) ≠ 0 ∧ (3#8) ≠ 4 ∧ (5#8) ≠ 4 ∧
    (5#8) ≠ 6 ∧ (7#8) ≠ 6 ∧ (1#8).toNat < 2 := by decide
theorem witness_ServoArityMismatch :
    (2#8).toNat ≤ 2 * ((small 0 [0] (.returns [] none)).x.size - 1) ∧
    (small 0 [0] (.returns [] none)).E.answer = .returns [] none ∧ 2 ≤ (small 0 [0] (.returns [] none)).x.size ∧
    (small 0 [0] (.returns [] none)).T[(codeOf .swrite).toNat]? = some (some (.canonical .swrite)) ∧
    (small 0 [0] (.returns [] none)).T[(codeOf .sattach).toNat]? = some (some (.canonical .sattach)) ∧
    (small 0 [0] (.returns [] none)).T[(codeOf .sdetach).toNat]? = some (some (.canonical .sdetach)) ∧
    (small 0 [0] (.returns [] none)).T[(codeOf .sread).toNat]? = some (some (.canonical .sread)) ∧
    (1#8) ≠ 2 ∧ (0#8) ≠ 1 ∧ (2#8) ≠ 1 := by decide
/-- A state for each clause: an operation waiting; the loop at POLL; a row at the control word; a code with no row. -/
theorem witness_StepRunsDecoded : (small 0 [] .hangs).fault = none ∧
    decodeOperation [4, 5] = .ok (.poll, [5]) ∧ (small 0 [] .hangs).port = [] ∧ (small 0 [] .hangs).phase = .poll ∧
    { small 0x0301 [0] .hangs with phase := .serve }.phase = .serve ∧
    decodeControlWord (small 0x0301 [0] .hangs).x.control = .ok (.dread 1) ∧
    decodeControlWord (small 0x1400 [0] .hangs).x.control = .error (.noRow 20) := by decide
/-- For each clause: a step that faults and is no hang; a marked state; a hang. -/
theorem witness_FaultMarkStays :
    faults (step { small 0 [] .hangs with port := [5] }) (.processWhileIdle 0) = true ∧
    ((small 0 [] .hangs).marked (.unregisteredCode 4)).fault = some (.unregisteredCode 4) ∧
    (((small 0 [] .hangs).marked (.unregisteredCode 4)).advance).isSome = true ∧
    faults (step { small 0x1300 [] .hangs with phase := .serve }) .handlerHang = true :=
  ⟨by decide, rfl, rfl, by decide⟩
/-- A step that goes on, from a state with the invariant. -/
theorem witness_StepKeepsInvariant : (small 0 [] .hangs).wf = true ∧
    goesOn (step { small 0 [] .hangs with port := [6, 20, 0, 7] }) (fun t => t.T[20]? == some (some (.custom 7))) = true := by
  decide +kernel
theorem witness_AgentsRights : goesOn (step { small 0x0301 [0x0700] (.returns [1] none) with phase := .serve })
    (fun t => t.x != (small 0x0301 [0x0700] (.returns [1] none)).x && t.E.draws == 1) = true := by decide
theorem witness_SizesKept : goesOn (step { small 0 [1] .hangs with port := [6, 255, 0, 7] })
    (fun t => t.x.size == 2 && t.T[255]? == some (some (.custom 7))) = true := by decide +kernel
theorem witness_NoEntryRemoved : (small 0 [] .hangs).T[3]? = some (some (.canonical .dread)) ∧
    goesOn (step { small 0 [] .hangs with port := [6, 3, 0, 7] }) (fun _ => true) = true := by decide +kernel
/-- Idle to Pending by a host that has seen Idle, and Pending to Idle by a served request. -/
theorem witness_PendingTransitions :
    goesOn (step (custom 0 [0] [] [{ accesses := [.read 0, .write 0 0x0100], newData := true }])) (fun t => t.isPending) = true ∧
    (custom 0 [0] [] []).isIdle = true ∧
    goesOn (step { custom 0x1400 [0] [] [] with phase := .serve }) (fun t => t.isIdle) = true ∧
    (custom 0x1400 [0] [] []).isPending = true := by decide
/-- The host reads, and writes a payload cell. -/
theorem witness_QuietIdleTurn :
    (custom 0x0001 [0x0100] [] [{ accesses := [.read 0, .write 1 5], newData := true }]).fault = none ∧
    (custom 0x0001 [0x0100] [] [{ accesses := [.read 0, .write 1 5], newData := true }]).port = [] ∧
    (custom 0x0001 [0x0100] [] [{ accesses := [.read 0, .write 1 5], newData := true }]).phase = .poll ∧
    (custom 0x0001 [0x0100] [] [{ accesses := [.read 0, .write 1 5], newData := true }]).isIdle = true ∧
    ∀ v, HostAccess.write 0 v ∈
      (custom 0x0001 [0x0100] [] [{ accesses := [.read 0, .write 1 5], newData := true }]).H.next.accesses →
      v.toNat < 256 := by
  refine ⟨rfl, rfl, rfl, by decide, ?_⟩
  simp [custom, Transport.next]
/-- A custom command with three argument bytes and one result byte, the host's two batches with two early reads of
`x[0]`, a host that has seen Idle, and both orders of the request's cells. -/
theorem witness_RequestResponseCycle :
    (sawIdle (custom 0 [0, 0] [9] [{ accesses := hostRequest 20 [1, 2, 3] 0xAA ++ List.replicate 2 (.read 0), newData := true },
      { accesses := hostReadback 1, newData := false }])).fault = none ∧
    (sawIdle (custom 0 [0, 0] [9] [])).isIdle = true ∧ (sawIdle (custom 0 [0, 0] [9] [])).H.host.sawIdle = true ∧
    (sawIdle (custom 0 [0, 0] [9] [])).H.host.wrote = 0 ∧
    ([HostAccess.write 1 0x0102, .write 2 0x03AA, .write 0 0x1403]).isPerm (hostRequest 20 [1, 2, 3] 0xAA) = true ∧
    ([HostAccess.write 0 0x1403, .write 2 0x03AA, .write 1 0x0102]).isPerm (hostRequest 20 [1, 2, 3] 0xAA) = true ∧
    ([1#8, 2#8, 3#8]).length ≤ (custom 0 [0, 0] [9] []).x.maxBytes ∧
    (custom 0 [0, 0] [9] []).T[(20#8).toNat]? = some (some (.custom 7)) ∧
    (custom 0 [0, 0] [9] []).E.answer = .returns [9] none ∧
    (handle (.custom 7) [1, 2, 3] (custom 0 [0, 0] [9] []).E).1.length = 1 ∧
    1 ≤ (custom 0 [0, 0] [9] []).x.maxBytes := by decide

end Sys2Proof.Tests
end

/-! SUPPORT. The invariant of the state: what a decoded instruction, a fetch and a step keep (10_state.md R21, R28, R29;
40_codec.md R109), and the request that a handler just registered serves (20_memory.md R73). -/

namespace Sys2Proof.Machine

/-! ### Lengths and bytes of payloads -/

@[simp] theorem length_pack (bs : List Byte) : (pack bs).length = ceilHalf bs.length := by
  induction bs using pack.induct with
  | case1 => rfl
  | case2 b => simp [pack, ceilHalf]
  | case3 a b bs ih => simp only [pack, List.length_cons, ih, ceilHalf]; omega

theorem length_of_unpack {ws : List Word} {n : Nat} {bs : List Byte} (h : unpack ws n = some bs) : bs.length = n := by
  induction ws, n using unpack.induct generalizing bs with
  | case1 ws =>
    rw [unpack] at h
    cases h
    rfl
  | case2 n => cases h
  | case3 w ws => cases h; rfl
  | case4 w ws n ih =>
    obtain ⟨cs, hcs, rfl⟩ := Option.map_eq_some_iff.mp h
    simp [ih hcs]

/-- Two bytes further in the payload is one cell further in the cells. -/
theorem payloadByte_cons_add_two (w : Word) (ws : List Word) (i : Nat) :
    payloadByte (w :: ws) (i + 2) = payloadByte ws i := by
  simp [payloadByte]

theorem payloadByte_take (ws : List Word) {n i : Nat} (h : i / 2 < n) : payloadByte (ws.take n) i = payloadByte ws i := by
  simp [payloadByte, h]

/-- A byte of the payload lies in a cell that exists. -/
theorem lt_of_payloadByte_eq_some {ws : List Word} {i : Nat} {b : Byte} (h : payloadByte ws i = some b) :
    i / 2 < ws.length := by
  obtain ⟨w, hw, -⟩ := Option.map_eq_some_iff.mp h
  exact (List.getElem?_eq_some_iff.mp hw).1

/-- Cells that hold the bytes where 20_memory.md R52 puts them unpack to the bytes, whatever the filler and the cells
after them hold. -/
theorem unpack_of_payloadByte {ws : List Word} {bs : List Byte} (h : ∀ i < bs.length, payloadByte ws i = bs[i]?) :
    unpack ws bs.length = some bs := by
  induction bs using List.twoStepInduction generalizing ws with
  | nil => cases ws <;> rfl
  | singleton b =>
    have h0 := h 0 (by simp)
    cases ws with
    | nil => cases h0
    | cons w ws => simpa [unpack, payloadByte] using h0
  | cons_cons a b bs ih _ =>
    have h0 := h 0 (by simp)
    have h1 := h 1 (by simp)
    cases ws with
    | nil => cases h0
    | cons w ws =>
      have hrest : unpack ws bs.length = some bs :=
        ih fun i hi => by simpa [payloadByte_cons_add_two] using h (i + 2) (by simpa using hi)
      simp only [payloadByte, Nat.zero_div, Nat.reduceDiv, List.getElem?_cons_zero, List.getElem?_cons_succ,
        Option.map_some, Option.some.injEq] at h0 h1
      simp only [if_true, Nat.reduceMod, one_ne_zero, if_false] at h0 h1
      simp [unpack, hrest, h0, h1]

/-- Argument bytes that lie in the payload cells are the operands that PROCESS assembles (30_encoding.md R86). -/
theorem operands_of_hasArgs {s : State} {args : List Byte} {argc : Byte} (hlen : args.length = argc.toNat)
    (h : s.hasArgs args) : operands s.x argc = some args := by
  have hfit : ceilHalf args.length ≤ s.x.payload.length := by
    rcases Nat.eq_zero_or_pos args.length with h0 | hpos
    · simp [h0, ceilHalf]
    · have hlast := h (args.length - 1) (by omega)
      rw [List.getElem?_eq_getElem (by omega)] at hlast
      have := lt_of_payloadByte_eq_some hlast
      simp only [ceilHalf]
      omega
  have hsize : ¬ ceilHalf args.length > s.x.size - 1 := by simpa [RegFile.size] using hfit
  rw [operands, ← hlen, if_neg hsize, memRead_payload _ _ _ (by omega), List.drop_zero]
  refine unpack_of_payloadByte fun i hi => ?_
  rw [payloadByte_take _ (by simp only [ceilHalf]; omega), h i hi]

/-! ### What the decoder hands out is well formed -/

theorem length_of_takeBytes {n : Nat} {bs taken rest : List Byte} (h : takeBytes n bs = some (taken, rest)) :
    taken.length = n := by
  induction n, bs using takeBytes.induct generalizing taken rest with
  | case1 bs => cases h; rfl
  | case2 n => cases h
  | case3 n b bs ih =>
    obtain ⟨⟨bs', rest'⟩, hp, he⟩ := Option.map_eq_some_iff.mp h
    cases he
    simp [ih hp]

theorem length_of_takeWords {n : Nat} {bs rest : List Byte} {ws : List Word} (h : takeWords n bs = some (ws, rest)) :
    ws.length = n := by
  induction n, bs using takeWords.induct generalizing ws rest with
  | case1 bs => cases h; rfl
  | case2 n hi lo bs ih =>
    obtain ⟨⟨ws', rest'⟩, hp, he⟩ := Option.map_eq_some_iff.mp h
    cases he
    simp [ih hp]
  | case3 n bs hne => simp [takeWords] at h

/-- A handler word names a handler that has a handler word. -/
theorem wf_of_decodeHandler {w : Word} {hd : Handler} (h : decodeHandler w = some hd) : hd.wf = true := by
  unfold decodeHandler at h
  split at h
  · obtain ⟨c, -, rfl⟩ := Option.map_eq_some_iff.mp h
    rfl
  · cases h
    simpa [Handler.wf]

theorem wf_of_decodeRegister {bs rest : List Byte} {i : Instr} (h : decodeRegister bs = .ok (i, rest)) :
    i.wf = true := by
  unfold decodeRegister at h
  split at h
  · split at h <;> cases h
    exact wf_of_decodeHandler ‹_›
  · cases h

theorem wf_of_decodeUnpack {bs rest : List Byte} {i : Instr} (h : decodeUnpack bs = .ok (i, rest)) : i.wf = true := by
  unfold decodeUnpack at h
  split at h
  · rename_i k _
    split at h <;> cases h
    have := length_of_takeWords ‹_›
    have := k.isLt
    simp only [Instr.wf, decide_eq_true_eq]
    omega
  · cases h

theorem wf_of_decodePack {bs rest : List Byte} {i : Instr} (h : decodePack bs = .ok (i, rest)) : i.wf = true := by
  unfold decodePack at h
  split at h
  · rename_i n _
    split at h <;> cases h
    have := length_of_takeBytes ‹_›
    have := n.isLt
    simp only [Instr.wf, decide_eq_true_eq]
    omega
  · cases h

theorem wf_of_decodeOperation {bs rest : List Byte} {i : Instr} (h : decodeOperation bs = .ok (i, rest)) :
    i.wf = true := by
  unfold decodeOperation at h
  split at h
  · cases h
  · split at h
    · unfold decodeDecodeControl at h; split at h <;> cases h; rfl
    · unfold decodeEncodeControl at h; split at h <;> cases h; rfl
    · exact wf_of_decodeUnpack h
    · exact wf_of_decodePack h
    · cases h; rfl
    · cases h; rfl
    · exact wf_of_decodeRegister h
    · cases h

@[simp] theorem wf_instr (c : Command) (argc : Byte) : (c.instr argc).wf = true := by
  cases c <;> rfl

theorem wf_of_decodeControlWord {w : Word} {i : Instr} (h : decodeControlWord w = .ok i) : i.wf = true := by
  unfold decodeControlWord at h
  split at h
  · cases h; rfl
  · split at h <;> cases h
    exact wf_instr _ _

/-! ### What a fetch, an instruction and a step change -/

/-- Fetch hands on a well-formed instruction. -/
theorem wf_of_fetch {s u : State} {i : Instr} (h : fetch s = .ok (i, u)) : i.wf = true := by
  rcases fetch_ok h with ⟨_, _, _, -, hd, -⟩ | ⟨-, -, rfl, -⟩ | ⟨-, -, hd, -⟩ | ⟨-, -, -, rfl, -⟩
  · exact wf_of_decodeOperation hd
  · rfl
  · exact wf_of_decodeControlWord hd
  · rfl

/-- Fetch changes the port and the phase alone. -/
theorem fetch_frame {s u : State} {i : Instr} (h : fetch s = .ok (i, u)) :
    u = { s with port := u.port, phase := u.phase } := by
  rcases fetch_ok h with ⟨_, _, _, -, -, rfl⟩ | ⟨-, -, -, rfl⟩ | ⟨-, -, -, rfl⟩ | ⟨-, -, -, -, rfl⟩ <;> rfl

/-- A served request changes `E` and `x` alone. -/
theorem serveRequest_frame {code argc : Byte} {s t : State} (h : serveRequest code argc s = .next t) :
    t = { s with E := t.E, x := t.x } := by
  obtain ⟨_, _, _, _, -, -, -, -, -, rfl⟩ := serveRequest_next h
  rfl

theorem serveRequest_size {code argc : Byte} {s t : State} (h : serveRequest code argc s = .next t) :
    t.x.size = s.x.size := by
  obtain ⟨_, _, _, _, -, -, -, -, -, rfl⟩ := serveRequest_next h
  exact size_respond _ _

/-- REGISTER goes on exactly where the table has the entry, and changes that entry alone (41_dispatcher.md R131). -/
theorem exec_register_next_iff {code : Byte} {hd : Handler} {s t : State} :
    exec (.register code hd) s = .next t ↔
      code.toNat < s.T.length ∧ t = { s with T := s.T.set code.toNat (some hd) } := by
  simp only [exec, execRegister, raise]
  split <;> simp [*, eq_comm]

/-- No instruction changes the number of cells (10_state.md R21). -/
theorem exec_size {i : Instr} {s t : State} (h : exec i s = .next t) : t.x.size = s.x.size := by
  rcases exec_next h with ⟨_, -, rfl⟩ | ⟨_, _, -, hs⟩ | ⟨-, _, rfl⟩ | ⟨-, rfl⟩ | ⟨_, _, -, -, rfl⟩
  · rfl
  · exact serveRequest_size hs
  · rfl
  · exact size_polled s
  · rfl

/-- No instruction that goes on touches the fault mark. -/
theorem exec_fault {i : Instr} {s t : State} (h : exec i s = .next t) : t.fault = s.fault := by
  rcases exec_next h with ⟨_, -, rfl⟩ | ⟨_, _, -, hs⟩ | ⟨-, _, rfl⟩ | ⟨-, rfl⟩ | ⟨_, _, -, -, rfl⟩
  case inr.inl => rw [serveRequest_frame hs]
  all_goals rfl

/-- Only REGISTER changes the table, and it puts its handler in one entry (10_state.md R28). -/
theorem exec_T {i : Instr} {s t : State} (h : exec i s = .next t) :
    t.T = s.T ∨ ∃ code hd, i = .register code hd ∧ code.toNat < s.T.length ∧ t.T = s.T.set code.toNat (some hd) := by
  rcases exec_next h with ⟨_, -, rfl⟩ | ⟨_, _, -, hs⟩ | ⟨-, _, rfl⟩ | ⟨-, rfl⟩ | ⟨code, hd, hi, hlt, rfl⟩
  case inr.inl => rw [serveRequest_frame hs]; exact .inl rfl
  case inr.inr.inr.inr => exact .inr ⟨code, hd, hi, hlt, rfl⟩
  all_goals exact .inl rfl

/-- A step changes the table by a REGISTER that it fetched, or not at all. -/
theorem step_T {s t : State} (h : step s = .next t) :
    t.T = s.T ∨ ∃ code hd u, fetch s = .ok (.register code hd, u) ∧ code.toNat < s.T.length ∧
      t.T = s.T.set code.toNat (some hd) := by
  obtain ⟨-, i, u, hf, he⟩ := step_next h
  have hu : u.T = s.T := by rw [fetch_frame hf]
  rw [← hu]
  rcases exec_T he with hT | ⟨code, hd, rfl, hlt, hT⟩
  · exact .inl hT
  · exact .inr ⟨code, hd, u, hf, hlt, hT⟩

theorem step_size {s t : State} (h : step s = .next t) : t.x.size = s.x.size := by
  obtain ⟨-, i, u, hf, he⟩ := step_next h
  rw [exec_size he, fetch_frame hf]

theorem step_length_T {s t : State} (h : step s = .next t) : t.T.length = s.T.length := by
  rcases step_T h with hT | ⟨_, _, _, -, -, hT⟩ <;> simp [hT]

/-- A step that goes on ends with no fault recorded. -/
theorem step_fault {s t : State} (h : step s = .next t) : t.fault = none := by
  obtain ⟨hs, i, u, hf, he⟩ := step_next h
  rw [exec_fault he, fetch_frame hf, hs]

/-! ### The invariant -/

theorem wf_iff (s : State) : s.wf = true ↔
    s.fault = none ∧ s.T.length = 256 ∧ (∀ hd, some hd ∈ s.T → hd.wf = true) ∧ s.result.bounded = true := by
  have hT : s.T.all (fun entry => entry.all Handler.wf) = true ↔ ∀ hd, some hd ∈ s.T → hd.wf = true := by
    simp only [List.all_eq_true, Option.all_eq_true]
    exact ⟨fun h hd hm => h _ hm hd rfl, fun h entry hm hd he => h hd (he ▸ hm)⟩
  simp only [State.wf, Bool.and_eq_true, Option.isNone_iff_eq_none, beq_iff_eq, hT, and_assoc]

/-- UNPACK's result has the bytes of its count, at most 255. -/
theorem execUnpack_result_bounded {cells : List Word} {length : Byte} {s t : State}
    (h : execUnpack cells length s = .next t) : t.result.bounded = true := by
  unfold execUnpack raise at h
  split at h <;> cases h
  have := length_of_unpack ‹_›
  have := length.isLt
  simp only [OpResult.bounded, decide_eq_true_eq]
  omega

/-- PACK's result has at most 128 cells where it is given at most 255 bytes. -/
theorem pack_bounded {bytes : List Byte} (h : bytes.length ≤ 255) : (OpResult.cells (pack bytes)).bounded = true := by
  simp only [OpResult.bounded, length_pack, ceilHalf, decide_eq_true_eq]
  omega

/-- A well-formed instruction leaves a result within the codec's bounds (40_codec.md R109). -/
theorem exec_result_bounded {i : Instr} {s t : State} (hi : i.wf = true) (hs : s.result.bounded = true)
    (h : exec i s = .next t) : t.result.bounded = true := by
  cases hreq : request s i with
  | some p =>
    rw [serveRequest_frame ((exec_eq_serveRequest hreq).symm.trans h)]
    exact hs
  | none =>
    cases i <;> simp only [request, reduceCtorEq] at hreq
    case idle => cases h; exact hs
    case unpack => exact execUnpack_result_bounded h
    case pack => cases h; exact pack_bounded (of_decide_eq_true hi)
    case register =>
      obtain ⟨-, rfl⟩ := exec_register_next_iff.mp h
      exact hs
    all_goals cases h; rfl

/-- A step registers only handlers that have a handler word. -/
theorem step_handlers_wf {s t : State} (hs : ∀ hd, some hd ∈ s.T → hd.wf = true) (h : step s = .next t) :
    ∀ hd, some hd ∈ t.T → hd.wf = true := by
  intro hd hm
  rcases step_T h with hT | ⟨code, new, u, hf, -, hT⟩ <;> rw [hT] at hm
  · exact hs hd hm
  · rcases List.mem_or_eq_of_mem_set hm with hold | heq
    · exact hs hd hold
    · cases heq
      exact wf_of_fetch hf

theorem step_result_bounded {s t : State} (hs : s.result.bounded = true) (h : step s = .next t) :
    t.result.bounded = true := by
  obtain ⟨-, i, u, hf, he⟩ := step_next h
  refine exec_result_bounded (wf_of_fetch hf) ?_ he
  rw [fetch_frame hf]
  exact hs

/-! ### A handler's result, and the request it serves -/

theorem length_bytes_le (e : Env) : e.bytes.length ≤ 255 := by
  unfold Env.bytes
  split
  · exact List.length_take_le _ _
  · exact Nat.zero_le _

theorem length_servoMismatch_le (e : Env) : (servoMismatch e).length ≤ 2 := by
  unfold servoMismatch
  split <;> simp

/-- A canonical handler answers the bytes that the hardware supplies, or at most two (42_commands.md R152 to R172). -/
theorem canonicalHandler_result (c : Command) (args : List Byte) (e : Env) :
    (canonicalHandler c args e).1 = e.bytes ∨ (canonicalHandler c args e).1.length ≤ 2 := by
  have hmis := length_servoMismatch_le e
  cases c <;> simp only [canonicalHandler]
  case i2cread => unfold i2creadHandler; split <;> simp
  case spixfer => unfold spixferHandler; split <;> simp
  case swrite =>
    unfold swriteHandler
    split
    · split <;> simp
    · exact .inr hmis
  all_goals
    refine .inr ?_
    simp only [pinmodeHandler, dwriteHandler, dreadHandler, awriteHandler, areadHandler, sattachHandler,
      sdetachHandler, sreadHandler, i2cbeginHandler, i2cendHandler, i2cclockHandler, i2cwriteHandler,
      spibeginHandler, spisetHandler, spiendHandler]
    split <;> simp [hmis]

/-- A handler returns at most 255 bytes (41_dispatcher.md R123). -/
theorem length_handle_le (h : Handler) (args : List Byte) (e : Env) : (handle h args e).1.length ≤ 255 := by
  have hb := length_bytes_le e
  cases h with
  | custom id => exact hb
  | canonical c =>
    rcases canonicalHandler_result c args e with hr | hr
    · simpa only [handle, hr] using hb
    · exact Nat.le_trans hr (by decide)

/-- The control word of a response is its count of bytes (41_dispatcher.md R130). -/
theorem encodeControl_zero {n : Nat} (h : n ≤ 255) : encodeControl 0 (BitVec.ofNat 8 n) = BitVec.ofNat 16 n := by
  apply BitVec.eq_of_toNat_eq
  rw [encodeControl, joinBytes_toNat]
  simp only [BitVec.ofNat_eq_ofNat, BitVec.toNat_ofNat]
  omega

/-- The request that an instruction serves is read from the cells alone. -/
theorem request_congr {s t : State} (h : t.x = s.x) (i : Instr) : request t i = request s i := by
  cases i <;> simp [request, h]

/-- A request whose arguments are in place, whose handler returns and whose result fits is served, with the handler's
environment and response. -/
theorem exec_request_served {i : Instr} {s : State} {code argc : Byte} {args bs : List Byte} {leaves : Option Hardware}
    {hd : Handler} (hreq : request s i = some (code, argc)) (hcode : code ≠ 0) (hlen : args.length = argc.toNat)
    (hargs : s.hasArgs args) (hT : s.T[code.toNat]? = some (some hd)) (hans : s.E.answer = .returns bs leaves)
    (hfit : (handle hd args s.E).1.length ≤ 2 * (s.x.size - 1)) :
    exec i s =
      .next { s with E := s.E.after (handle hd args s.E).2, x := s.x.respond (handle hd args s.E).1 } := by
  rw [exec_eq_serveRequest hreq]
  exact serveRequest_served hcode (operands_of_hasArgs hlen hargs) hT (call_of_returns hd args hans)
    (by simp only [ceilHalf]; omega)

/-! ### The statements -/

/-- Settles O52: fetch decodes only well-formed instructions, and of those each part of the invariant has its step
lemma. -/
theorem stepKeepsInvariant : Obligations.StepKeepsInvariant := by
  intro s t hwf hstep
  obtain ⟨-, hlen, hhandlers, hres⟩ := (wf_iff s).mp hwf
  exact (wf_iff t).mpr ⟨step_fault hstep, (step_length_T hstep).trans hlen, step_handlers_wf hhandlers hstep,
    step_result_bounded hres hstep⟩

/-- Settles O34: the request is served in the state that REGISTER leaves, whose entry for the code is the new handler. -/
theorem registrationSeenByProcess : Obligations.RegistrationSeenByProcess := by
  intro i s code argc args bs leaves h hlt hreq hcode hlen hargs hans hfit
  have hserved := exec_request_served (s := { s with T := s.T.set code.toNat (some h) })
    ((request_congr rfl i).trans hreq) hcode hlen hargs (List.getElem?_set_self hlt) hans hfit
  exact ⟨_, _, exec_register_next_iff.mpr ⟨hlt, rfl⟩, hserved, rfl, encodeControl_zero (length_handle_le h args s.E)⟩

/-- Settles O54, from what a step does to the cells and to the table. -/
theorem sizesKept : Obligations.SizesKept :=
  fun _ _ hstep => ⟨step_size hstep, step_length_T hstep⟩

/-- Settles O56: the table stays, or REGISTER puts a handler in one entry. -/
theorem noEntryRemoved : Obligations.NoEntryRemoved := by
  intro s t code h hstep hentry
  rcases step_T hstep with hT | ⟨new, hd, _, -, hlt, hT⟩ <;> rw [hT]
  · exact ⟨h, hentry⟩
  · by_cases hc : new.toNat = code
    · exact ⟨hd, hc ▸ List.getElem?_set_self hlt⟩
    · exact ⟨h, (List.getElem?_set_ne hc).trans hentry⟩

end Sys2Proof.Machine

/-! SUPPORT. The memory's statements: where a payload's bytes lie and what a response leaves (20_memory.md R52, R54,
R70), and what the host accesses of one POLL do to the cells and answer (R59, R64, R66; 60_exceptions.md R195). -/

namespace Sys2Proof.Machine

/-! ### Where the bytes of a packed payload lie -/

/-- The byte at a place of the payload is its cell divided by 256, or the cell's remainder (20_memory.md R52). -/
theorem toNat_of_payloadByte {ws : List Word} {i : Nat} {v : Byte} (h : payloadByte ws i = some v) :
    ∃ w, ws[i / 2]? = some w ∧ v.toNat = if i % 2 = 0 then w.toNat / 256 else w.toNat % 256 := by
  obtain ⟨w, hw, rfl⟩ := Option.map_eq_some_iff.mp h
  refine ⟨w, hw, ?_⟩
  split
  · exact hiByte_toNat w
  · exact loByte_toNat w

theorem payloadByte_append_left {ws : List Word} {i : Nat} (h : i / 2 < ws.length) (us : List Word) :
    payloadByte (ws ++ us) i = payloadByte ws i := by
  simp [payloadByte, List.getElem?_append_left h]

/-- PACK puts byte `i` where 20_memory.md R52 has it. -/
theorem payloadByte_pack {bs : List Byte} {i : Nat} (h : i < bs.length) : payloadByte (pack bs) i = bs[i]? := by
  induction bs using pack.induct generalizing i with
  | case1 => cases h
  | case2 b =>
    obtain rfl : i = 0 := Nat.lt_one_iff.mp h
    simp [pack, payloadByte]
  | case3 a b bs ih =>
    match i with
    | 0 => simp [pack, payloadByte]
    | 1 => simp [pack, payloadByte]
    | j + 2 =>
      rw [pack, payloadByte_cons_add_two, ih (by simpa using h)]
      simp

/-- PACK puts 0 in the filler of an odd payload (20_memory.md R54). -/
theorem payloadByte_pack_filler {bs : List Byte} (h : bs.length % 2 = 1) :
    payloadByte (pack bs) bs.length = some 0 := by
  induction bs using pack.induct with
  | case1 => cases h
  | case2 b => simp [pack, payloadByte]
  | case3 a b bs ih =>
    rw [pack, List.length_cons, List.length_cons, payloadByte_cons_add_two]
    exact ih ((Nat.add_mod_right bs.length 2).symm.trans h)

/-! ### What a response leaves in the cells -/

/-- A response that fits writes the result over the payload cells and keeps every later one (20_memory.md R70). -/
theorem holdsResult_respond {x : RegFile} {res : List Byte} (hfit : ceilHalf res.length ≤ x.size - 1) :
    holdsResult (x.respond res).payload x.payload res := by
  have hlen : (pack res).length ≤ x.payload.length := by simpa [RegFile.size] using hfit
  rw [payload_respond x res hlen]
  refine ⟨by simp only [List.length_append, List.length_drop]; omega, fun k hk => ?_, fun hodd => ?_, fun k _ hk => ?_⟩
  · rw [payloadByte_append_left (by simp only [length_pack, ceilHalf]; omega), payloadByte_pack hk]
  · rw [payloadByte_append_left (by simp only [length_pack, ceilHalf]; omega), payloadByte_pack_filler hodd]
  · rw [← length_pack] at hk
    rw [List.getElem?_append_right hk, List.getElem?_drop, Nat.add_sub_cancel' hk]

/-- Cells as long as the old ones that hold the result over them keep what lies beyond it, past the last cell too. -/
theorem getElem?_of_holdsResult {new old : List Word} {res : List Byte} (h : holdsResult new old res) {k : Nat}
    (hk : ceilHalf res.length ≤ k) : new[k]? = old[k]? := by
  obtain ⟨hlen, -, -, hkeep⟩ := h
  rcases Nat.lt_or_ge k old.length with hlt | hge
  · exact hkeep k hlt hk
  · rw [List.getElem?_eq_none hge, List.getElem?_eq_none (hlen ▸ hge)]

/-- A call that returns gives at most 255 bytes (41_dispatcher.md R123). -/
theorem length_le_of_call {h : Handler} {args res : List Byte} {e env : Env}
    (hcall : call h args e = .returns res env) : res.length ≤ 255 := by
  unfold call at hcall
  split at hcall <;> cases hcall
  exact length_handle_le h args e

/-- The control cell of a response is the number of its bytes (41_dispatcher.md R130). -/
theorem toNat_control_respond {x : RegFile} {res : List Byte} (h : res.length ≤ 255) :
    (x.respond res).control.toNat = res.length := by
  rw [control_respond, encodeControl_zero h, BitVec.toNat_ofNat]
  omega

/-! ### One host access, and a batch of them -/

/-- What every host access keeps, a batch keeps. -/
theorem applyAccesses_induction {P : Link → Prop} {as : List HostAccess} {l : Link} (h0 : P l)
    (hstep : ∀ m, P m → ∀ a ∈ as, P (applyAccess m a)) : P (applyAccesses l as) :=
  List.foldlRecOn as applyAccess h0 hstep

@[simp] theorem applyAccesses_singleton (l : Link) (a : HostAccess) : applyAccesses l [a] = applyAccess l a := rfl

/-- POLL applies the accesses of the batch at the head of the queue (20_memory.md R64). -/
theorem polled_of_queue {s : State} {as : List HostAccess} {nd : Bool} {rest : List Batch}
    (h : s.H.queue = { accesses := as, newData := nd } :: rest) : s.polled = applyAccesses s.link as := by
  simp [State.polled, Transport.next, h]

/-- POLL completes at every state, and its answer is whether the control cell is a request's then (41_dispatcher.md
R129). -/
theorem exec_poll (s : State) :
    exec .poll s = .next { (pollTransport s).2 with result := .pending (pollTransport s).2.isPending } := rfl

theorem cell?_eq_getCell {x : RegFile} {i : Nat} (h : i < x.size) : x.cell? i = some (x.getCell i) := by
  obtain ⟨w, hw⟩ := Option.isSome_iff_exists.mp ((cell?_isSome x i).mpr h)
  simp [RegFile.getCell, hw]

/-- A control cell that is the same is Pending alike (10_state.md R30). -/
theorem isPending_congr {s t : State} (h : t.x.cell? 0 = s.x.cell? 0) : t.isPending = s.isPending := by
  rw [State.isPending, Option.some.inj h, State.isPending]

/-- A write that the host has as a move stores the cell, if the cell exists. -/
theorem cell?_applyAccess_write {l : Link} {i : Nat} {v : Word} (ha : l.allows (.write i v) = true)
    (hi : i < l.x.size) : (applyAccess l (.write i v)).x.cell? i = some v := by
  rw [applyAccess, if_pos ha, land_write_x, cell?_setCell_self _ _ _ hi]

/-- The reads that a host has as moves (20_memory.md R66 b, 60_exceptions.md R195). -/
theorem allows_read_iff (l : Link) (i : Nat) : l.allows (.read i) = true ↔
    l.rendezvous = false ∨ i = 0 ∨ l.x.control.toNat < 256 ∧ i ≤ l.host.covered := by
  cases i with
  | zero => simp [Link.allows, RegFile.cancelledBy, Link.may]
  | succ k => simp [Link.allows, RegFile.cancelledBy, Link.may, ← hiByte_eq_zero]

@[simp] theorem applyAccess_read_x (l : Link) (i : Nat) : (applyAccess l (.read i)).x = l.x := by
  rcases applyAccess_cases l (.read i) with ⟨-, h⟩ | ⟨-, h⟩ <;> simp [h]

theorem answered_land_read {l : Link} {i : Nat} (h : i < l.x.size) :
    (l.land (.read i)).answered = l.answered ++ [(i, l.x.getCell i)] := by
  simp only [Link.land, cell?_eq_getCell h]

/-- A read of a cell that exists is answered with the cell, exactly if the host has it as a move. -/
theorem answered_applyAccess_read {l : Link} {i : Nat} (h : i < l.x.size) :
    (applyAccess l (.read i)).answered =
      l.answered ++ (if l.allows (.read i) = true then [(i, l.x.getCell i)] else []) := by
  rcases applyAccess_cases l (.read i) with ⟨ha, he⟩ | ⟨ha, he⟩
  · simp [ha, he]
  · simp [ha, he, answered_land_read h]

/-! ### Host accesses while a request is pending -/

/-- No host access cancels a request (60_exceptions.md R195). -/
theorem applyAccess_pending {l : Link} (hp : hiByte l.x.control ≠ 0#8) (a : HostAccess) :
    hiByte (applyAccess l a).x.control ≠ 0#8 := by
  rcases applyAccess_cases l a with ⟨-, he⟩ | ⟨ha, he⟩ <;> rw [he]
  · exact hp
  · match a with
    | .read i => simpa using hp
    | .write (k + 1) v => simpa using hp
    | .write 0 v =>
      have hnc : l.x.cancelledBy (.write 0 v) = false := by
        simp only [Link.allows, Bool.and_eq_true, Bool.not_eq_true'] at ha
        exact ha.1
      simpa [RegFile.cancelledBy, hp] using hnc

/-- While a request is pending whose transaction is over, all that keeps the rendezvous is to read `x[0]` (20_memory.md
R66 b, c). -/
theorem eq_read_zero_of_may {l : Link} {a : HostAccess} (hp : hiByte l.x.control ≠ 0#8) (hs : l.sending = 0)
    (hm : l.may a = true) : a = .read 0 := by
  match a with
  | .read 0 => rfl
  | .read (k + 1) => simp [Link.may, hp] at hm
  | .write 0 w => simp [Link.may, hp] at hm
  | .write (k + 1) w => simp [Link.may, hp, hs] at hm

theorem eq_read_zero_of_keeps {l : Link} {as : List HostAccess} (hp : hiByte l.x.control ≠ 0#8)
    (hs : l.sending = 0) (hk : l.keeps as = true) : ∀ a ∈ as, a = .read 0 := by
  induction as generalizing l with
  | nil => simp
  | cons a as ih =>
    obtain ⟨hm, hk⟩ := (Bool.and_eq_true _ _).mp hk
    obtain rfl := eq_read_zero_of_may hp hs hm
    exact List.forall_mem_cons.mpr ⟨rfl, ih (l := l.land (.read 0)) (by simpa using hp) rfl hk⟩

/-- From `l` on the host has only waited: no cell changed, no transaction is under way, and every answer is
the control word. -/
structure Link.WaitedSince (l m : Link) : Prop where
  x : m.x = l.x
  sending : m.sending = 0
  rendezvous : m.rendezvous = l.rendezvous
  answered : ∃ n, m.answered = l.answered ++ List.replicate n (0, l.x.control)

theorem Link.WaitedSince.refl {l : Link} (hs : l.sending = 0) : l.WaitedSince l := ⟨rfl, hs, rfl, 0, by simp⟩

theorem Link.WaitedSince.read_zero {l m : Link} (h : l.WaitedSince m) : l.WaitedSince (m.land (.read 0)) := by
  obtain ⟨hx, -, hr, n, hn⟩ := h
  refine ⟨hx, rfl, hr, n + 1, ?_⟩
  calc (m.land (.read 0)).answered = m.answered ++ [(0, m.x.control)] := rfl
    _ = l.answered ++ List.replicate (n + 1) (0, l.x.control) := by
      rw [hx, hn, List.replicate_succ', List.append_assoc]

/-- A host in the rendezvous, and any that only reads `x[0]`, waits while a request is pending. -/
theorem waitedSince_applyAccesses {l : Link} {as : List HostAccess} (hp : hiByte l.x.control ≠ 0#8)
    (hs : l.sending = 0) (hh : l.rendezvous = true ∨ ∀ a ∈ as, a = .read 0) : l.WaitedSince (applyAccesses l as) := by
  refine applyAccesses_induction (.refl hs) fun m hm a ha => ?_
  rcases applyAccess_cases m a with ⟨-, he⟩ | ⟨hallow, he⟩ <;> rw [he]
  · exact hm
  · have hread : a = .read 0 := by
      rcases hh with hr | hread
      · have hmay : m.may a = true := by
          simp only [Link.allows, hm.rendezvous, hr, Bool.and_eq_true] at hallow
          simpa using hallow.2
        exact eq_read_zero_of_may (by rwa [hm.x]) hm.sending hmay
      · exact hread a ha
    exact hread ▸ hm.read_zero

/-! ### The memory's statements -/

/-- Settles O10: PACK puts byte `i` where R52 has it, and a byte at its place is the half of its cell as a number. -/
theorem packedByteOrder : Obligations.PackedByteOrder := by
  intro b i hi
  have hb : b[i]? = some b[i] := List.getElem?_eq_getElem hi
  obtain ⟨w, hw, hv⟩ := toNat_of_payloadByte ((payloadByte_pack hi).trans hb)
  exact ⟨w, b[i], hw, hb, hv⟩

/-- Settles O17: the write stores the cell, and no later access writes it. -/
theorem pollHostWriteLands : Obligations.PollHostWriteLands := by
  intro s before after i v nd rest hq hafter hi hallow
  refine ⟨_, exec_poll s, ?_⟩
  calc s.polled.x.cell? i
      = (applyAccesses (applyAccess (applyAccesses s.link before) (.write i v)) after).x.cell? i := by
        rw [polled_of_queue hq, applyAccesses_append]; rfl
    _ = (applyAccess (applyAccesses s.link before) (.write i v)).x.cell? i := cell?_applyAccesses _ _ _ hafter
    _ = some v := cell?_applyAccess_write hallow (by simpa using hi)

/-- Settles O18: a batch keeps a cell that it does not write, and POLL's answer is read from `x[0]` alone. -/
theorem pollFrame : Obligations.PollFrame := by
  intro s i hi
  have hcell : (pollTransport s).2.x.cell? i = s.x.cell? i := cell?_applyAccesses s.link _ i hi
  refine ⟨_, exec_poll s, hcell, ?_⟩
  rintro rfl
  exact congrArg OpResult.pending (isPending_congr hcell)

/-- Settles O19: the read is answered exactly if the host has it as a move, and the moves to read are those of
`allows_read_iff`. -/
theorem pollAnswersRead : Obligations.PollAnswersRead := by
  intro s before i nd rest hq hi
  have hpolled : s.polled = applyAccess (applyAccesses s.link before) (.read i) := by
    rw [polled_of_queue hq, applyAccesses_append, applyAccesses_singleton]
  have hx : s.polled.x = (applyAccesses s.link before).x := by rw [hpolled, applyAccess_read_x]
  refine ⟨_, exec_poll s, hx, ?_⟩
  simp only [pollTransport_answered, pollTransport_x, hx]
  rw [hpolled, answered_applyAccess_read (by simpa using hi)]
  simp only [allows_read_iff, rendezvous_applyAccesses, link_rendezvous]

/-- Settles O20: no access cancels a request, and a host in the rendezvous or a batch that keeps it only waits. -/
theorem rendezvousKeepsRequest : Obligations.RendezvousKeepsRequest := by
  intro s hs
  have hp : hiByte s.link.x.control ≠ 0#8 := by simpa [State.isPending] using hs
  have hstill : hiByte s.polled.x.control ≠ 0#8 :=
    applyAccesses_induction (P := fun l => hiByte l.x.control ≠ 0#8) hp fun _ hm a _ => applyAccess_pending hm a
  refine ⟨_, exec_poll s, by simpa [State.isPending] using hstill, fun hhost => ?_⟩
  have hwait : s.link.WaitedSince s.polled :=
    waitedSince_applyAccesses hp rfl (hhost.imp_right (eq_read_zero_of_keeps hp rfl))
  exact ⟨hwait.x, hwait.answered⟩

/-- Settles O24: a served request changes `E` and `x` alone, and its cells hold the result over the old ones. -/
theorem serveFrame : Obligations.ServeFrame := by
  rintro i s t ⟨code, argc⟩ hreq hexec
  obtain ⟨args, hd, res, env, -, -, -, hcall, hfit, rfl⟩ :=
    serveRequest_next ((exec_eq_serveRequest hreq).symm.trans hexec)
  have hres := holdsResult_respond hfit
  have ⟨hlen, _, hfiller, _⟩ := hres
  rw [toNat_control_respond (length_le_of_call hcall)]
  exact ⟨rfl, hlen, fun _ hk => getElem?_of_holdsResult hres hk, hfiller⟩

end Sys2Proof.Machine

/-! SUPPORT. The encodings' statements: the rows of the control word (30_encoding.md R81, R82, R87, R90), and the bytes
of the operation port, which decode to what was encoded and leave the rest (30_encoding.md R89). -/

namespace Sys2Proof.Machine

/-! ### The command codes -/

theorem commandOf_codeOf (c : Command) : commandOf (codeOf c) = some c := by
  cases c <;> rfl

theorem codeOf_of_commandOf {code : Byte} {c : Command} (h : commandOf code = some c) : codeOf c = code := by
  unfold commandOf at h
  split at h <;> cases h <;> exact BitVec.eq_of_toNat_eq (Eq.symm ‹_›)

/-- A command's code is none of those that have no row, nor the response's (30_encoding.md R87). -/
theorem codeOf_bounds (c : Command) : 0 < (codeOf c).toNat ∧ (codeOf c).toNat ≠ 4 ∧ (codeOf c).toNat < 20 := by
  cases c <;> decide

theorem codeOf_ne_zero (c : Command) : codeOf c ≠ 0#8 := fun h => by
  simpa [h] using (codeOf_bounds c).1

/-- Codes 4 and 20..255 have no row (42_commands.md R170). -/
theorem commandOf_eq_none {code : Byte} (h : code.toNat = 4 ∨ 20 ≤ code.toNat) : commandOf code = none := by
  refine Option.eq_none_iff_forall_ne_some.mpr fun c hc => ?_
  have := codeOf_bounds c
  rw [codeOf_of_commandOf hc] at this
  omega

/-! ### The control word -/

theorem loByte_eq_ofNat (w : Word) : loByte w = BitVec.ofNat 8 w.toNat :=
  BitVec.eq_of_toNat_eq (by rw [loByte_toNat, BitVec.toNat_ofNat])

/-- The control words that are a row: high byte 0 is a response word, and the code of a command is a request. -/
theorem decodeControlWord_eq_ok_iff {w : Word} {i : Instr} : decodeControlWord w = .ok i ↔
    hiByte w = 0 ∧ i = .idle (loByte w) ∨ ∃ c, hiByte w = codeOf c ∧ i = c.instr (loByte w) := by
  constructor
  · intro h
    unfold decodeControlWord at h
    split at h
    case isTrue h0 => cases h; exact .inl ⟨h0, rfl⟩
    case isFalse =>
      split at h <;> cases h
      exact .inr ⟨_, (codeOf_of_commandOf ‹_›).symm, rfl⟩
  · rintro (⟨h0, rfl⟩ | ⟨c, hc, rfl⟩)
    · exact if_pos h0
    · simp [decodeControlWord, hc, codeOf_ne_zero, commandOf_codeOf]

theorem decodeControlWord_noRow {w : Word} (h : (hiByte w).toNat = 4 ∨ 20 ≤ (hiByte w).toNat) :
    decodeControlWord w = .error (.noRow (hiByte w)) := by
  have h0 : hiByte w ≠ 0#8 := fun h0 => by simp [h0] at h
  simp [decodeControlWord, h0, commandOf_eq_none h]

theorem encode_instr (c : Command) (argc : Byte) :
    encode (c.instr argc) = .control (encodeControl (codeOf c) argc) := by
  cases c <;> rfl

theorem encode_of_decodeControlWord {w : Word} {i : Instr} (h : decodeControlWord w = .ok i) :
    encode i = .control w := by
  rcases decodeControlWord_eq_ok_iff.mp h with ⟨h0, rfl⟩ | ⟨c, hc, rfl⟩
  · rw [encode, encodeControl, ← h0, joinBytes_hiByte_loByte]
  · rw [encode_instr, encodeControl, ← hc, joinBytes_hiByte_loByte]

theorem decodeControlWord_response (resc : Byte) : decodeControlWord (encodeControl 0 resc) = .ok (.idle resc) :=
  decodeControlWord_eq_ok_iff.mpr (.inl (by simp [encodeControl]))

theorem decodeControlWord_request (c : Command) (argc : Byte) :
    decodeControlWord (encodeControl (codeOf c) argc) = .ok (c.instr argc) :=
  decodeControlWord_eq_ok_iff.mpr (.inr ⟨c, by simp [encodeControl]⟩)

theorem decodeControlWord_of_encode {w : Word} {i : Instr} (h : encode i = .control w) :
    decodeControlWord w = .ok i := by
  cases i <;> cases h
  case idle resc => exact decodeControlWord_response resc
  case pinmode argc => exact decodeControlWord_request .pinmode argc
  case dwrite argc => exact decodeControlWord_request .dwrite argc
  case dread argc => exact decodeControlWord_request .dread argc
  case awrite argc => exact decodeControlWord_request .awrite argc
  case aread argc => exact decodeControlWord_request .aread argc
  case sattach argc => exact decodeControlWord_request .sattach argc
  case sdetach argc => exact decodeControlWord_request .sdetach argc
  case swrite argc => exact decodeControlWord_request .swrite argc
  case sread argc => exact decodeControlWord_request .sread argc
  case i2cbegin argc => exact decodeControlWord_request .i2cbegin argc
  case i2cend argc => exact decodeControlWord_request .i2cend argc
  case i2cclock argc => exact decodeControlWord_request .i2cclock argc
  case i2cwrite argc => exact decodeControlWord_request .i2cwrite argc
  case i2cread argc => exact decodeControlWord_request .i2cread argc
  case spibegin argc => exact decodeControlWord_request .spibegin argc
  case spiset argc => exact decodeControlWord_request .spiset argc
  case spixfer argc => exact decodeControlWord_request .spixfer argc
  case spiend argc => exact decodeControlWord_request .spiend argc

/-! ### The operation port -/

theorem takeBytes_append (bs rest : List Byte) : takeBytes bs.length (bs ++ rest) = some (bs, rest) := by
  induction bs with
  | nil => rfl
  | cons b bs ih => simp [takeBytes, ih]

theorem takeWords_append (ws : List Word) (rest : List Byte) :
    takeWords ws.length (ws.flatMap wordBytes ++ rest) = some (ws, rest) := by
  induction ws with
  | nil => rfl
  | cons w ws ih => simp [takeWords, wordBytes, ih]

theorem decodeHandler_handlerWord {hd : Handler} (h : hd.wf = true) : decodeHandler (handlerWord hd) = some hd := by
  cases hd with
  | canonical c => simp [decodeHandler, handlerWord, commandOf_codeOf]
  | custom id =>
    have hid : hiByte id ≠ 0xFF := by simpa [Handler.wf] using h
    exact if_neg hid

theorem decodeOperation_of_encode {i : Instr} {bytes : List Byte} (hwf : i.wf = true) (h : encode i = .port bytes)
    (rest : List Byte) : decodeOperation (bytes ++ rest) = .ok (i, rest) := by
  cases i <;> cases h
  case decodecontrol cell => simp [decodeOperation, decodeDecodeControl, wordBytes]
  case encodecontrol code count => rfl
  case unpack cells length =>
    have hcount : cells.length % 256 = cells.length := Nat.mod_eq_of_lt (Nat.lt_succ_of_le (of_decide_eq_true hwf))
    simp [decodeOperation, decodeUnpack, hcount, takeWords_append]
  case pack bytes =>
    have hcount : bytes.length % 256 = bytes.length := Nat.mod_eq_of_lt (Nat.lt_succ_of_le (of_decide_eq_true hwf))
    simp [decodeOperation, decodePack, hcount, takeBytes_append]
  case poll => rfl
  case process => rfl
  case register code hd => simp [decodeOperation, decodeRegister, wordBytes, decodeHandler_handlerWord hwf]

/-! ### The encodings' statements -/

/-- Settles O1: the decoder of control words and the decoder of the port each take back what `encode` gives them. -/
theorem decodeEncodeRoundTrip : Obligations.DecodeEncodeRoundTrip := by
  intro i rest hwf
  cases himage : encode i with
  | control w => simp [decode, decodeControlWord_of_encode himage]
  | port bytes => exact decodeOperation_of_encode hwf himage rest

/-- Settles O2: a word that decodes is its two bytes joined, and these are what `encode` joins. -/
theorem controlWordEncodesBack : Obligations.ControlWordEncodesBack :=
  fun _ _ => encode_of_decodeControlWord

/-- Settles O3, from the words that decode and those that have no row. -/
theorem controlWordRows : Obligations.ControlWordRows := by
  intro w
  rw [← hiByte_toNat, ← loByte_eq_ofNat, BitVec.ofNat_toNat, BitVec.setWidth_eq]
  refine ⟨fun h => ?_, fun c h => ?_, decodeControlWord_noRow⟩
  · exact decodeControlWord_eq_ok_iff.mpr (.inl ⟨BitVec.eq_of_toNat_eq h, rfl⟩)
  · exact decodeControlWord_eq_ok_iff.mpr (.inr ⟨c, BitVec.eq_of_toNat_eq h, rfl⟩)

/-- Settles O4: the control words are the images of these instructions, and the port's bytes are computed. -/
theorem writtenOutWordsDecode : Obligations.WrittenOutWordsDecode :=
  ⟨decodeControlWord_of_encode rfl, decodeControlWord_of_encode rfl, decodeControlWord_of_encode rfl,
    decodeControlWord_of_encode rfl, decodeControlWord_of_encode rfl, rfl, rfl, rfl⟩

end Sys2Proof.Machine

/-! SUPPORT. The Register Codec's statements: when UNPACK has a value and which bytes it is (40_codec.md R103;
20_memory.md R52), both compositions with PACK (40_codec.md R105, R108), and the four operations at the port (R100). -/

namespace Sys2Proof.Machine

/-! ### When UNPACK has a value, and which -/

/-- UNPACK has no value exactly with fewer cells than the payload occupies (40_codec.md R103). -/
theorem unpack_eq_none_iff {ws : List Word} {n : Nat} : unpack ws n = none ↔ ws.length < ceilHalf n := by
  induction ws, n using unpack.induct with
  | case1 ws => simp [unpack, ceilHalf]
  | case2 n => simp only [unpack, List.length_nil, ceilHalf, true_iff]; omega
  | case3 w ws => simp [unpack, ceilHalf]
  | case4 w ws n ih =>
    simp only [unpack, Option.map_eq_none_iff, ih, List.length_cons, ceilHalf]
    omega

theorem exists_unpack {ws : List Word} {n : Nat} (h : ceilHalf n ≤ ws.length) : ∃ bs, unpack ws n = some bs :=
  Option.ne_none_iff_exists'.mp fun hnone => Nat.not_lt.mpr h (unpack_eq_none_iff.mp hnone)

/-- UNPACK takes byte `i` from where 20_memory.md R52 has it; the converse is `unpack_of_payloadByte`. -/
theorem getElem?_of_unpack {ws : List Word} {n i : Nat} {bs : List Byte} (h : unpack ws n = some bs) (hi : i < n) :
    bs[i]? = payloadByte ws i := by
  induction ws, n using unpack.induct generalizing bs i with
  | case1 ws => cases hi
  | case2 n => cases h
  | case3 w ws =>
    cases h
    obtain rfl : i = 0 := Nat.lt_one_iff.mp hi
    rfl
  | case4 w ws n ih =>
    obtain ⟨cs, hcs, rfl⟩ := Option.map_eq_some_iff.mp h
    match i with
    | 0 => rfl
    | 1 => rfl
    | j + 2 => rw [payloadByte_cons_add_two, ← ih hcs (by omega), List.getElem?_cons_succ, List.getElem?_cons_succ]

/-! ### Packing what was unpacked -/

/-- A whole cell that is unpacked packs to itself. -/
theorem pack_hiByte_loByte_cons (w : Word) (bs : List Byte) : pack (hiByte w :: loByte w :: bs) = w :: pack bs := by
  rw [pack, joinBytes_hiByte_loByte]

/-- With no filler nothing is lost (40_codec.md R108). -/
theorem pack_of_unpack_even {cs : List Word} {bs : List Byte} (h : unpack cs (2 * cs.length) = some bs) :
    pack bs = cs := by
  induction cs generalizing bs with
  | nil => cases h; rfl
  | cons w ws ih =>
    obtain ⟨rest, hrest, rfl⟩ := Option.map_eq_some_iff.mp h
    rw [pack_hiByte_loByte_cons, ih hrest]

/-- The filler of the last cell is lost, and alone (40_codec.md R108). -/
theorem pack_of_unpack_odd {init : List Word} {last : Word} {bs : List Byte}
    (h : unpack (init ++ [last]) (2 * init.length + 1) = some bs) :
    pack bs = init ++ [joinBytes (hiByte last) 0] := by
  induction init generalizing bs with
  | nil => cases h; rfl
  | cons w ws ih =>
    obtain ⟨rest, hrest, rfl⟩ := Option.map_eq_some_iff.mp h
    rw [pack_hiByte_loByte_cons, ih hrest, List.cons_append]

/-! ### The codec's operations -/

theorem exec_unpack_of_eq_some {cells : List Word} {length : Byte} {bs : List Byte}
    (h : unpack cells length.toNat = some bs) (s : State) :
    exec (.unpack cells length) s = .next { s with result := .bytes bs } := by
  simp only [exec, execUnpack, h]

theorem exec_unpack_of_eq_none {cells : List Word} {length : Byte} (h : unpack cells length.toNat = none) (s : State) :
    exec (.unpack cells length) s = .fault (.argRange length) := by
  simp only [exec, execUnpack, h, raise]

theorem hiByte_eq_ofNat (w : Word) : hiByte w = BitVec.ofNat 8 (w.toNat / 256) := by
  rw [← hiByte_toNat, BitVec.ofNat_toNat, BitVec.setWidth_eq]

theorem loByte_eq_ofNat_mod (w : Word) : loByte w = BitVec.ofNat 8 (w.toNat % 256) := by
  rw [← loByte_toNat, BitVec.ofNat_toNat, BitVec.setWidth_eq]

theorem joinBytes_eq_ofNat (hi lo : Byte) : joinBytes hi lo = BitVec.ofNat 16 (hi.toNat * 256 + lo.toNat) := by
  rw [← joinBytes_toNat, BitVec.ofNat_toNat, BitVec.setWidth_eq]

/-! ### The codec's statements -/

/-- Settles O7: PACK puts every byte where UNPACK takes it from. -/
theorem payloadRoundTrip : Obligations.PayloadRoundTrip :=
  fun _ _ => unpack_of_payloadByte fun _ => payloadByte_pack

/-- Settles O8: an even count fills its cells, and an odd one leaves the filler of the last cell. -/
theorem repackZeroesFiller : Obligations.RepackZeroesFiller := by
  intro cs n hlen
  obtain ⟨bs, hbs⟩ := exists_unpack hlen.ge
  unfold ceilHalf at hlen
  refine ⟨bs, hbs, fun heven => ?_, fun hodd => ?_⟩
  · obtain rfl : n = 2 * cs.length := by omega
    exact pack_of_unpack_even hbs
  · have hne : cs ≠ [] := List.ne_nil_of_length_pos (by omega)
    obtain ⟨init, last, rfl⟩ := (List.eq_nil_or_concat' cs).resolve_left hne
    rw [List.length_append, List.length_singleton] at hlen
    obtain rfl : n = 2 * init.length + 1 := by omega
    exact ⟨init, last, rfl, pack_of_unpack_odd hbs⟩

/-- Settles O9: the bounds are the lengths of payloads of at most 255 bytes. -/
theorem codecLengths : Obligations.CodecLengths := by
  refine ⟨length_pack, fun _ _ _ => length_of_unpack, fun b hb => ?_, fun cs n bs h => ?_⟩
  · rw [length_pack, ceilHalf]
    omega
  · rw [length_of_unpack h]
    exact Nat.le_of_lt_succ n.isLt

/-- Settles O12, with the value that UNPACK has. -/
theorem unpackCompletes : Obligations.UnpackCompletes := by
  intro cells length s hcells
  obtain ⟨bs, hbs⟩ := exists_unpack hcells
  exact ⟨bs, length_of_unpack hbs, fun _ => getElem?_of_unpack hbs, exec_unpack_of_eq_some hbs s⟩

/-- Settles O13: there is no value to answer. -/
theorem unpackShortFaults : Obligations.UnpackShortFaults :=
  fun _ _ s hshort => exec_unpack_of_eq_none (unpack_eq_none_iff.mpr hshort) s

/-- Settles O14, with the packed cells. -/
theorem packCompletes : Obligations.PackCompletes :=
  fun bytes _ => ⟨pack bytes, length_pack bytes, fun _ => payloadByte_pack, payloadByte_pack_filler, rfl⟩

/-- Settles O6: joining two bytes and taking the halves of a cell undo each other. -/
theorem controlWordRoundTrip : Obligations.ControlWordRoundTrip :=
  ⟨fun code count => Prod.ext (hiByte_joinBytes code count) (loByte_joinBytes code count), joinBytes_hiByte_loByte⟩

/-- Settles O11: the halves of a cell and the joined bytes, as numbers. -/
theorem controlWordOperations : Obligations.ControlWordOperations := by
  refine ⟨fun cell s => ?_, fun code count s => ?_⟩
  · rw [← hiByte_eq_ofNat, ← loByte_eq_ofNat_mod]
    rfl
  · rw [← joinBytes_eq_ofNat]
    rfl

end Sys2Proof.Machine

/-! SUPPORT. The dispatcher's statements: the outcomes of one operation (41_dispatcher.md R120, R125, R129 to R131, R135;
60_exceptions.md R183 to R188), the turns of the loop (R127, R128, R133, R138), and a request with its response, end to
end (20_memory.md R66 to R69). -/

namespace Sys2Proof.Machine

/-! ### A step of the loop -/

theorem step_port {s : State} {b : Byte} {bs rest : List Byte} {i : Instr} (hf : s.fault = none)
    (hport : s.port = b :: bs) (hdec : decodeOperation (b :: bs) = .ok (i, rest)) :
    step s = exec i { s with port := rest } := by
  simp only [step, hf, fetch, hport, hdec]

/-- At the top of the loop a step is POLL (41_dispatcher.md R133). -/
theorem step_poll {s : State} (hf : s.fault = none) (hport : s.port = []) (hphase : s.phase = .poll) :
    step s = exec .poll { s with phase := .serve } := by
  simp only [step, hf, fetch, hport, hphase]

/-- The state that the POLL at the top of the loop leaves. -/
def State.afterPoll (s : State) : State :=
  { (pollTransport s).2 with result := .pending (pollTransport s).2.isPending, phase := .serve }

@[simp] theorem afterPoll_x (s : State) : s.afterPoll.x = s.polled.x := rfl
@[simp] theorem afterPoll_E (s : State) : s.afterPoll.E = s.E := rfl
@[simp] theorem afterPoll_queue (s : State) : s.afterPoll.H.queue = s.H.queue.tail := rfl
@[simp] theorem afterPoll_rendezvous (s : State) : s.afterPoll.H.rendezvous = s.polled.rendezvous := rfl

theorem step_eq_afterPoll {s : State} (hf : s.fault = none) (hport : s.port = []) (hphase : s.phase = .poll) :
    step s = .next s.afterPoll := by
  rw [step_poll hf hport hphase]
  rfl

theorem step_row {s : State} {i : Instr} (hf : s.fault = none) (hport : s.port = []) (hphase : s.phase = .serve)
    (hdec : decodeControlWord s.x.control = .ok i) : step s = exec i { s with phase := .poll } := by
  simp only [step, hf, fetch, hport, hphase, hdec]

theorem step_noRow {s : State} {e : DecodeError} (hf : s.fault = none) (hport : s.port = [])
    (hphase : s.phase = .serve) (hdec : decodeControlWord s.x.control = .error e) :
    step s = exec .process { s with phase := .poll } := by
  simp only [step, hf, fetch, hport, hphase, hdec]

/-! ### Idle and Pending -/

theorem isIdle_iff (s : State) : s.isIdle = true ↔ hiByte s.x.control = 0#8 := by simp [State.isIdle]

theorem isPending_eq_false_iff (s : State) : s.isPending = false ↔ hiByte s.x.control = 0#8 := by
  simp [State.isPending]

theorem isPending_iff (s : State) : s.isPending = true ↔ hiByte s.x.control ≠ 0#8 := by simp [State.isPending]

theorem isPending_eq_decide (s : State) : s.isPending = decide (256 ≤ s.x.control.toNat) := by
  have hiff := (isPending_iff s).trans (not_congr (hiByte_eq_zero s.x.control))
  rw [Bool.eq_iff_iff, hiff, decide_eq_true_iff, Nat.not_lt]

/-- A block that is Idle stays so through accesses of which none writes a request's control word. -/
theorem idle_applyAccesses {l : Link} {as : List HostAccess} (hidle : hiByte l.x.control = 0#8)
    (has : ∀ v, HostAccess.write 0 v ∈ as → v.toNat < 256) : hiByte (applyAccesses l as).x.control = 0#8 := by
  refine applyAccesses_induction (P := fun m => hiByte m.x.control = 0#8) hidle fun m hm a ha => ?_
  rcases applyAccess_cases m a with ⟨-, he⟩ | ⟨-, he⟩ <;> rw [he]
  · exact hm
  · match a with
    | .read i => simpa using hm
    | .write 0 v => exact (hiByte_eq_zero v).mpr (has v ha)
    | .write (k + 1) v => simpa using hm

/-- Idle becomes Pending only by a write of a request's control word (41_dispatcher.md R127). -/
theorem exists_write_of_pending {l : Link} {as : List HostAccess} (hidle : hiByte l.x.control = 0#8)
    (hp : hiByte (applyAccesses l as).x.control ≠ 0#8) : ∃ v, HostAccess.write 0 v ∈ as ∧ 256 ≤ v.toNat := by
  by_contra hnone
  exact hp (idle_applyAccesses hidle fun v hv => Nat.lt_of_not_le fun hbig => hnone ⟨v, hv, hbig⟩)

/-- No batch cancels a request (60_exceptions.md R195). -/
theorem pending_applyAccesses {l : Link} (as : List HostAccess) (hp : hiByte l.x.control ≠ 0#8) :
    hiByte (applyAccesses l as).x.control ≠ 0#8 :=
  applyAccesses_induction (P := fun m => hiByte m.x.control ≠ 0#8) hp fun _ hm a _ => applyAccess_pending hm a

theorem afterPoll_result_of_pending {s : State} (hp : hiByte s.polled.x.control ≠ 0#8) :
    s.afterPoll.result = .pending true :=
  congrArg OpResult.pending ((isPending_iff s.afterPoll).mpr hp)

theorem afterPoll_result_of_idle {s : State} (hidle : hiByte s.polled.x.control = 0#8) :
    s.afterPoll.result = .pending false :=
  congrArg OpResult.pending ((isPending_eq_false_iff s.afterPoll).mpr hidle)

/-- While Idle the turn of the loop ends with nothing to dispatch (42_commands.md R151; log 10). -/
theorem step_serve_of_idle {s : State} (hf : s.fault = none) (hport : s.port = []) (hphase : s.phase = .serve)
    (hidle : hiByte s.x.control = 0#8) : step s = .next { s with phase := .poll } :=
  step_row hf hport hphase (decodeControlWord_eq_ok_iff.mpr (.inl ⟨hidle, rfl⟩))

/-! ### The outcomes of a request -/

/-- A command serves the request with its own code (41_dispatcher.md R130). -/
theorem request_instr (s : State) (c : Command) (argc : Byte) : request s (c.instr argc) = some (codeOf c, argc) := by
  cases c <;> rfl

/-- PROCESS on a control word that is a command's is the command. -/
theorem exec_process_eq {s : State} {i : Instr} (hp : hiByte s.x.control ≠ 0#8)
    (hdec : decodeControlWord s.x.control = .ok i) : exec .process s = exec i s := by
  rcases decodeControlWord_eq_ok_iff.mp hdec with ⟨h0, -⟩ | ⟨c, hc, rfl⟩
  · exact absurd h0 hp
  · rw [exec_eq_serveRequest (request_instr s c _), ← hc]
    rfl

/-- A pending request is PROCESS's, whether its code has a row or not (30_encoding.md R90; 42_commands.md R170). -/
theorem step_serve_of_pending {s : State} (hf : s.fault = none) (hport : s.port = []) (hphase : s.phase = .serve)
    (hp : hiByte s.x.control ≠ 0#8) : step s = exec .process { s with phase := .poll } := by
  cases hdec : decodeControlWord s.x.control with
  | ok i => exact (step_row hf hport hphase hdec).trans (exec_process_eq (s := { s with phase := .poll }) hp hdec).symm
  | error e => exact step_noRow hf hport hphase hdec

/-- Arguments that fit the register file are operands (60_exceptions.md R185). -/
theorem exists_operands {x : RegFile} {argc : Byte} (h : argc.toNat ≤ 2 * (x.size - 1)) :
    ∃ args, operands x argc = some args ∧ args.length = argc.toNat := by
  have hfit : ¬ ceilHalf argc.toNat > x.size - 1 := by simp only [ceilHalf]; omega
  obtain ⟨args, hargs⟩ := exists_unpack (ws := x.memRead 1 (ceilHalf argc.toNat)) (n := argc.toNat) (by simp)
  exact ⟨args, by rw [operands, if_neg hfit, hargs], length_of_unpack hargs⟩

/-- A request with its bytes in the cells goes on to the table (60_exceptions.md R189). -/
theorem serveRequest_eq_dispatchCode {code argc : Byte} {s : State} {args : List Byte} (hcode : code ≠ 0)
    (hargs : operands s.x argc = some args) : serveRequest code argc s = dispatchCode code args s := by
  simp only [serveRequest, if_neg hcode, hargs]

theorem dispatchCode_of_empty {code : Byte} {s : State} (args : List Byte) (hT : s.T[code.toNat]? = some none) :
    dispatchCode code args s = .fault (.unregisteredCode code) := by
  simp only [dispatchCode, hT, raise]

theorem dispatchCode_of_hangs {code : Byte} {s : State} {h : Handler} (args : List Byte)
    (hT : s.T[code.toNat]? = some (some h)) (hans : s.E.answer = .hangs) :
    dispatchCode code args s = .fault .handlerHang := by
  simp only [dispatchCode, hT, callAndRespond, (call_hangs_iff h args s.E).mpr hans, raise]

theorem serveRequest_zero (argc : Byte) (s : State) :
    serveRequest 0#8 argc s = .fault (.processWhileIdle (encodeControl 0#8 argc)) := rfl

/-- What a completed request leaves in `x[0]`: the length of its result, at most 255 (41_dispatcher.md R130). -/
theorem toNat_control_of_serveRequest {code argc : Byte} {s t : State} (h : serveRequest code argc s = .next t) :
    t.x.control.toNat < 256 := by
  obtain ⟨args, hd, res, env, -, -, -, hcall, -, rfl⟩ := serveRequest_next h
  have hres := length_le_of_call hcall
  exact Nat.lt_succ_of_le ((toNat_control_respond hres).trans_le hres)

/-- What an instruction does to the cells: a request it serves leaves a response, POLL applies its batch, and all others
leave them as they are. -/
theorem exec_x {i : Instr} {s t : State} (h : exec i s = .next t) :
    (∃ p, request s i = some p ∧ t.isIdle = true) ∨
    (i = .poll ∧ t.x = s.polled.x ∧ t.result = .pending t.isPending) ∨ t.x = s.x := by
  rcases exec_next h with ⟨_, -, rfl⟩ | ⟨code, argc, hreq, hserve⟩ | ⟨-, _, rfl⟩ | ⟨rfl, rfl⟩ | ⟨_, _, -, -, rfl⟩
  case inr.inl =>
    exact .inl ⟨_, hreq, (isIdle_iff t).mpr ((hiByte_eq_zero _).mpr (toNat_control_of_serveRequest hserve))⟩
  case inr.inr.inr.inl => exact .inr (.inl ⟨rfl, rfl, rfl⟩)
  all_goals exact .inr (.inr rfl)

/-! ### The arity of a command -/

/-- The counts that are a command's arity (42_commands.md R150, R152 to R169). -/
def takesCount : Command → Nat → Prop
  | .i2cbegin, n | .i2cend, n | .spibegin, n | .spiend, n => n = 0
  | .dread, n | .aread, n | .sattach, n | .sdetach, n | .sread, n => n = 1
  | .pinmode, n | .dwrite, n | .swrite, n => n = 2
  | .awrite, n | .i2cread, n => n = 3
  | .i2cclock, n => n = 4
  | .spiset, n => n = 6
  | .i2cwrite, n => 2 ≤ n
  | .spixfer, n => 1 ≤ n

/-- The commands that report a status, also on an arity mismatch (42_commands.md R172). -/
def isServoCommand (c : Command) : Prop := c = .sattach ∨ c = .sdetach ∨ c = .swrite ∨ c = .sread

/-- On an arity mismatch a handler that is no servo command's returns no byte, and leaves what the oracle leaves
(41_dispatcher.md R121; log 17). -/
theorem canonicalHandler_of_not_takesCount {c : Command} {args : List Byte} (e : Env) (hservo : ¬ isServoCommand c)
    (h : ¬ takesCount c args.length) : canonicalHandler c args e = ([], e.leaves) := by
  cases c <;> simp only [isServoCommand, reduceCtorEq, or_false, or_true, not_true, not_false_iff] at hservo
  all_goals
    simp only [canonicalHandler, pinmodeHandler, dwriteHandler, dreadHandler, awriteHandler, areadHandler,
      i2cbeginHandler, i2cendHandler, i2cclockHandler, i2cwriteHandler, i2creadHandler, spibeginHandler,
      spisetHandler, spixferHandler, spiendHandler]
    split
    · simp [takesCount] at h
    · rfl

/-! ### The dispatcher's statements on one operation -/

/-- Settles O15, with the state that POLL leaves. -/
theorem pollCompletes : Obligations.PollCompletes := fun s =>
  ⟨_, exec_poll s, rfl, rfl, rfl, congrArg OpResult.pending (isPending_eq_decide (pollTransport s).2), rfl,
    rendezvous_polled s, rfl⟩

/-- Settles O21: a Pending control word that decodes is a command's, with its code and count. -/
theorem processIsItsCommand : Obligations.ProcessIsItsCommand := by
  intro s i hp hdec
  refine exec_process_eq (fun h0 => ?_) hdec
  have := (hiByte_eq_zero _).mp h0
  omega

/-- Settles O22: the request is served, and its response holds the result over the old cells. -/
theorem requestServed : Obligations.RequestServed := by
  intro i s code argc args bs leaves h hreq hcode hlen hargs hT hans hfit
  refine ⟨_, holdsResult_respond (x := s.x) (by simp only [ceilHalf]; omega), ?_⟩
  rw [exec_request_served hreq hcode hlen hargs hT hans hfit, ← encodeControl_zero (length_handle_le h args s.E),
    ← control_respond s.x]

/-- Settles O23, from what a completed request leaves in `x[0]`. -/
theorem highByteZeroAfterProcess : Obligations.HighByteZeroAfterProcess :=
  fun _ _ _ _ hreq hexec => toNat_control_of_serveRequest ((exec_eq_serveRequest hreq).symm.trans hexec)

/-- Settles O25: both requests make the same call, and a response is its result. -/
theorem handlerSeesOnlyItsArguments : Obligations.HandlerSeesOnlyItsArguments := by
  intro i i' s s' t code code' argc args hreq hreq' hcode' hlen hargs hargs' hsize hT hE hexec
  obtain ⟨_, hd, res, env, -, hops, hentry, hcall, hfit, rfl⟩ :=
    serveRequest_next ((exec_eq_serveRequest hreq).symm.trans hexec)
  obtain rfl := Option.some.inj ((operands_of_hasArgs hlen hargs).symm.trans hops)
  have hfit' : ceilHalf res.length ≤ s'.x.size - 1 := hsize ▸ hfit
  have hserved := serveRequest_served hcode' (operands_of_hasArgs hlen hargs') (hT ▸ hentry) (hE ▸ hcall) hfit'
  refine ⟨_, (exec_eq_serveRequest hreq').trans hserved, rfl, rfl, fun k hk => ?_⟩
  rw [toNat_control_respond (length_le_of_call hcall)] at hk
  obtain ⟨-, hbytes, -, -⟩ := holdsResult_respond hfit
  obtain ⟨-, hbytes', -, -⟩ := holdsResult_respond hfit'
  exact (hbytes' k hk).trans (hbytes k hk).symm

/-- Settles O28: the arguments fit, and the entry is empty. -/
theorem unregisteredCodeFaults : Obligations.UnregisteredCodeFaults := by
  intro i s code argc hreq hcode hfit hT
  obtain ⟨args, hargs, -⟩ := exists_operands hfit
  rw [exec_eq_serveRequest hreq, serveRequest_eq_dispatchCode hcode hargs, dispatchCode_of_empty args hT]

/-- Settles O29: the arguments fit, and the handler that is called hangs. -/
theorem handlerHangStops : Obligations.HandlerHangStops := by
  intro i s code argc h hreq hcode hfit hT hans
  obtain ⟨args, hargs, -⟩ := exists_operands hfit
  rw [exec_eq_serveRequest hreq, serveRequest_eq_dispatchCode hcode hargs, dispatchCode_of_hangs args hT hans]

/-- Settles O48: the handler is called with a number of bytes that is not its arity, and returns none. -/
theorem arityMismatchReturnsNothing : Obligations.ArityMismatchReturnsNothing := by
  intro c s argc bs leaves hfit hT hans hmis
  obtain ⟨args, hargs, hlen⟩ := exists_operands hfit
  have hkind : ¬ isServoCommand c := by
    rintro (rfl | rfl | rfl | rfl) <;> exact hmis
  have hcount : ¬ takesCount c args.length := by
    rw [hlen]
    cases c <;> simp only [takesCount] at hmis ⊢ <;> bv_omega
  have hres : handle (.canonical c) args s.E = ([], s.E.leaves) :=
    canonicalHandler_of_not_takesCount s.E hkind hcount
  have hcall : call (.canonical c) args s.E = .returns [] (s.E.after s.E.leaves) := by
    rw [call_of_returns _ args hans, hres]
  rw [exec_eq_serveRequest (request_instr s c argc)]
  exact serveRequest_served (codeOf_ne_zero c) hargs hT hcall (Nat.zero_le _)

/-- Settles O16: a batch without accesses leaves the cells as they are. -/
theorem pollDoesNotConsume : Obligations.PollDoesNotConsume := by
  intro s nd nd' rest hq
  have hx : s.polled.x = s.x := by rw [polled_of_queue hq]; rfl
  have hq' : (pollTransport s).2.H.queue = { accesses := [], newData := nd' } :: rest := by
    rw [pollTransport_queue, hq, List.tail_cons]
  have hx' : (pollTransport s).2.polled.x = s.x := by rw [polled_of_queue hq']; exact hx
  refine ⟨_, _, exec_poll s, exec_poll _, hx, hx', ?_, ?_, ?_⟩
  · exact congrArg OpResult.pending (isPending_congr (congrArg (RegFile.cell? · 0) hx))
  · exact congrArg OpResult.pending (isPending_congr (congrArg (RegFile.cell? · 0) hx'))
  · exact congrArg List.tail hq'

/-- Settles O26: the code of the request is 0. -/
theorem processWhileIdleFaults : Obligations.ProcessWhileIdleFaults := by
  intro s hidle
  have h0 : hiByte s.x.control = 0#8 := (hiByte_eq_zero _).mpr hidle
  calc exec .process s = serveRequest (hiByte s.x.control) (loByte s.x.control) s := rfl
    _ = .fault (.processWhileIdle (encodeControl (hiByte s.x.control) (loByte s.x.control))) := by
      rw [h0, serveRequest_zero]
    _ = .fault (.processWhileIdle s.x.control) := by rw [encodeControl, joinBytes_hiByte_loByte]

/-- Settles O33: REGISTER sets the one entry, and setting it again leaves the second handler. -/
theorem registerCompletes : Obligations.RegisterCompletes := by
  intro s code h hlt
  refine ⟨_, exec_register_next_iff.mpr ⟨hlt, rfl⟩, List.getElem?_set_self hlt,
    fun c hc => List.getElem?_set_ne hc.symm, rfl, fun h' => ?_⟩
  rw [exec_register_next_iff.mpr ⟨by simpa using hlt, rfl⟩, exec_register_next_iff.mpr ⟨hlt, rfl⟩]
  simp only [List.set_set]

/-! ### The loop's statements -/

/-- Settles O50: a step at the port, and the three at the loop. -/
theorem stepRunsDecoded : Obligations.StepRunsDecoded :=
  fun _ hf => ⟨fun _ _ _ _ => step_port hf, step_poll hf, fun _ => step_row hf, fun _ => step_noRow hf⟩

/-- Settles O57: what an instruction does to the control cell, with the batch of a POLL. -/
theorem pendingTransitions : Obligations.PendingTransitions := by
  intro s t hstep
  obtain ⟨-, i, u, hfetch, hexec⟩ := step_next hstep
  have hux : u.x = s.x := by rw [fetch_frame hfetch]
  have huH : u.H = s.H := by rw [fetch_frame hfetch]
  rw [isIdle_iff, isPending_iff, isPending_iff, isIdle_iff]
  rcases exec_x hexec with ⟨p, hreq, hidle⟩ | ⟨rfl, hx, hresult⟩ | hx
  case inl => exact ⟨fun _ hp => absurd ((isIdle_iff t).mp hidle) hp, fun _ _ => ⟨i, u, p, hfetch, hreq⟩⟩
  case inr.inl =>
    rw [← hux, hx]
    refine ⟨fun hidle hp => ?_, fun hp hidle => absurd hidle (pending_applyAccesses _ hp)⟩
    obtain ⟨v, hv, hbig⟩ := exists_write_of_pending (l := u.link) hidle hp
    exact ⟨u, v, hfetch, huH ▸ hv, hbig, hresult.trans (congrArg _ ((isPending_iff t).mpr (hx ▸ hp)))⟩
  case inr.inr =>
    rw [hx, hux]
    exact ⟨fun hidle hp => absurd hidle hp, fun hp hidle => absurd hidle hp⟩

/-- Settles O59: the batch leaves the block Idle, and the control word that POLL leaves is row IDLE. -/
theorem quietIdleTurn : Obligations.QuietIdleTurn := by
  intro s hf hport hphase hidle hquiet
  have hpolled : hiByte s.polled.x.control = 0#8 := idle_applyAccesses ((isIdle_iff s).mp hidle) hquiet
  exact ⟨s.afterPoll, _, step_eq_afterPoll hf hport hphase,
    afterPoll_result_of_idle hpolled,
    step_serve_of_idle (s := s.afterPoll) hf hport rfl hpolled, rfl, rfl, rfl, rfl,
    fun i hi => cell?_applyAccesses s.link _ i hi⟩

/-! ### The writes of a request -/

@[simp] theorem length_packWith (filler : Byte) (bs : List Byte) : (packWith filler bs).length = ceilHalf bs.length := by
  induction bs using packWith.induct with
  | case1 => rfl
  | case2 b => simp [packWith, ceilHalf]
  | case3 a b bs ih => simp only [packWith, List.length_cons, ih, ceilHalf]; omega

/-- The host puts byte `i` where 20_memory.md R52 has it, whatever its filler. -/
theorem payloadByte_packWith {filler : Byte} {bs : List Byte} {i : Nat} (h : i < bs.length) :
    payloadByte (packWith filler bs) i = bs[i]? := by
  induction bs using packWith.induct generalizing i with
  | case1 => cases h
  | case2 b =>
    obtain rfl : i = 0 := Nat.lt_one_iff.mp h
    simp [packWith, payloadByte]
  | case3 a b bs ih =>
    match i with
    | 0 => simp [packWith, payloadByte]
    | 1 => simp [packWith, payloadByte]
    | j + 2 =>
      rw [packWith, payloadByte_cons_add_two, ih (by simpa using h)]
      simp

theorem hostWrites_eq_mapIdx (a : Nat) (cs : List Word) :
    hostWrites a cs = cs.mapIdx fun k c => .write (a + k) c := by
  induction cs generalizing a with
  | nil => rfl
  | cons c cs ih => simp [hostWrites, ih, List.mapIdx_cons, Nat.add_assoc, Nat.add_comm 1]

/-- The control word that HOSTREQ writes (20_memory.md R68). -/
def requestWord (code : Byte) (args : List Byte) : Word := encodeControl code (BitVec.ofNat 8 args.length)

@[simp] theorem hiByte_requestWord (code : Byte) (args : List Byte) : hiByte (requestWord code args) = code :=
  hiByte_joinBytes _ _

theorem toNat_ofNat_length {bs : List Byte} (h : bs.length ≤ 255) : (BitVec.ofNat 8 bs.length).toNat = bs.length := by
  rw [BitVec.toNat_ofNat]
  omega

/-- The count in the control word of a request is the number of its bytes. -/
theorem toNat_loByte_requestWord (code : Byte) {args : List Byte} (h : args.length ≤ 255) :
    (loByte (requestWord code args)).toNat = args.length := by
  rw [requestWord, encodeControl, loByte_joinBytes, toNat_ofNat_length h]

/-- The writes of HOSTREQ: the control word, and each payload cell with its packed bytes (20_memory.md R68). -/
theorem mem_hostRequest {code filler : Byte} {args : List Byte} {a : HostAccess} :
    a ∈ hostRequest code args filler ↔
      a = .write 0 (requestWord code args) ∨ ∃ k c, (packWith filler args)[k]? = some c ∧ a = .write (k + 1) c := by
  rw [hostRequest, hostWrites_eq_mapIdx, List.mem_append, List.mem_mapIdx, List.mem_singleton, or_comm]
  refine or_congr_right ⟨?_, ?_⟩
  · rintro ⟨k, hk, rfl⟩
    exact ⟨k, _, List.getElem?_eq_getElem hk, by rw [Nat.add_comm]⟩
  · rintro ⟨k, c, hc, rfl⟩
    obtain ⟨hk, rfl⟩ := List.getElem?_eq_some_iff.mp hc
    exact ⟨k, hk, by rw [Nat.add_comm]⟩

theorem write_zero_mem_hostRequest {code filler : Byte} {args : List Byte} {v : Word} :
    .write 0 v ∈ hostRequest code args filler ↔ v = requestWord code args := by
  simp [mem_hostRequest]

theorem write_succ_mem_hostRequest {code filler : Byte} {args : List Byte} {k : Nat} {v : Word} :
    .write (k + 1) v ∈ hostRequest code args filler ↔ (packWith filler args)[k]? = some v := by
  simp [mem_hostRequest]

/-- The accesses that are writes of a request with the control word `w`: the control word itself, and payload cells that
its count covers (20_memory.md R67). -/
def partOfRequest (w : Word) : HostAccess → Prop
  | .read _ => False
  | .write 0 v => v = w
  | .write (k + 1) _ => k < ceilHalf (loByte w).toNat

theorem partOfRequest_of_mem_hostRequest {code filler : Byte} {args : List Byte} {a : HostAccess}
    (hlen : args.length ≤ 255) (ha : a ∈ hostRequest code args filler) : partOfRequest (requestWord code args) a := by
  rcases mem_hostRequest.mp ha with rfl | ⟨k, c, hc, rfl⟩
  · rfl
  · obtain ⟨hk, -⟩ := List.getElem?_eq_some_iff.mp hc
    simpa [partOfRequest, toNat_loByte_requestWord code hlen] using hk

/-- How a host stands that keeps the rendezvous while it writes the request with the control word `w`: it has not written
`w` yet and may, or the transaction of `w` is under way (20_memory.md R66 a, c, R67). -/
def Link.requesting (w : Word) (l : Link) : Prop :=
  l.rendezvous = true →
    (hiByte l.x.control = 0#8 ∧ l.host.sawIdle = true ∧ l.host.wrote ≤ ceilHalf (loByte w).toNat) ∨
    (l.x.control = w ∧ l.sending = ceilHalf (loByte w).toNat ∧ l.host.asked = true)

/-- Every write of the request is a move, but the control word once it stands. -/
theorem allows_of_requesting {w : Word} {l : Link} {a : HostAccess} (hw : hiByte w ≠ 0#8) (hl : l.requesting w)
    (ha : partOfRequest w a) : l.allows a = true ∨ a = .write 0 w ∧ l.x.control = w := by
  match a with
  | .write 0 v =>
    obtain rfl : v = w := ha
    cases hr : l.rendezvous with
    | false => simp [Link.allows, RegFile.cancelledBy, hr, hw]
    | true =>
      rcases hl hr with ⟨h0, hsaw, hwrote⟩ | ⟨hx, -, -⟩
      · simp [Link.allows, RegFile.cancelledBy, Link.may, h0, hsaw, hwrote, hw]
      · exact .inr ⟨rfl, hx⟩
  | .write (k + 1) v =>
    have hk : k < ceilHalf (loByte w).toNat := ha
    cases hr : l.rendezvous with
    | false => simp [Link.allows, RegFile.cancelledBy, hr]
    | true =>
      rcases hl hr with ⟨h0, -, -⟩ | ⟨-, hs, -⟩
      · simp [Link.allows, RegFile.cancelledBy, Link.may, h0]
      · simp [Link.allows, RegFile.cancelledBy, Link.may, hs, hk]

/-- The host goes on with its request. -/
theorem requesting_applyAccess {w : Word} {l : Link} {a : HostAccess} (hl : l.requesting w)
    (ha : partOfRequest w a) : (applyAccess l a).requesting w := by
  rcases applyAccess_cases l a with ⟨-, he⟩ | ⟨-, he⟩ <;> rw [he]
  · exact hl
  · intro hr
    match a with
    | .write 0 v =>
      obtain rfl : v = w := ha
      exact .inr ⟨rfl, rfl, rfl⟩
    | .write (k + 1) v =>
      have hk : k < ceilHalf (loByte w).toNat := ha
      rcases hl (by simpa using hr) with ⟨h0, hsaw, hwrote⟩ | ⟨hx, hs, hasked⟩
      · exact .inl ⟨h0, hsaw, Nat.max_le.mpr ⟨hwrote, hk⟩⟩
      · exact .inr ⟨hx, hs, hasked⟩

/-- A write of the request puts its value in its cell. -/
theorem cell?_applyAccess_of_requesting {w v : Word} {l : Link} {i : Nat} (hw : hiByte w ≠ 0#8) (hl : l.requesting w)
    (ha : partOfRequest w (.write i v)) (hi : i < l.x.size) : (applyAccess l (.write i v)).x.cell? i = some v := by
  rcases allows_of_requesting hw hl ha with hallow | ⟨heq, hx⟩
  · exact cell?_applyAccess_write hallow hi
  · cases heq
    rcases applyAccess_cases l (.write 0 w) with ⟨-, he⟩ | ⟨-, he⟩ <;> rw [he]
    · exact congrArg some hx
    · rfl

@[simp] theorem size_applyAccess (l : Link) (a : HostAccess) : (applyAccess l a).x.size = l.x.size :=
  size_applyAccesses l [a]

/-- A cell that holds a value keeps it through accesses of which none writes another one to it. -/
theorem cell?_applyAccesses_of_agree {l : Link} {as : List HostAccess} {i : Nat} {v : Word} (hi : i < l.x.size)
    (hcell : l.x.cell? i = some v) (has : ∀ u, HostAccess.write i u ∈ as → u = v) :
    (applyAccesses l as).x.cell? i = some v := by
  induction as generalizing l with
  | nil => exact hcell
  | cons a as ih =>
    refine ih (l := applyAccess l a) (by simpa using hi) ?_ fun u hu => has u (List.mem_cons_of_mem _ hu)
    rcases applyAccess_cases l a with ⟨-, he⟩ | ⟨-, he⟩ <;> rw [he]
    · exact hcell
    · cases a with
      | read j => simpa using hcell
      | write j u =>
        by_cases hj : j = i
        · subst hj
          rw [land_write_x, cell?_setCell_self _ _ _ hi, has u List.mem_cons_self]
        · rw [land_write_x, cell?_setCell_other _ _ _ _ hj, hcell]

theorem requesting_applyAccesses {w : Word} {l : Link} {as : List HostAccess} (hl : l.requesting w)
    (has : ∀ a ∈ as, partOfRequest w a) : (applyAccesses l as).requesting w :=
  applyAccesses_induction hl fun _ hm a ha => requesting_applyAccess hm (has a ha)

/-- The writes of a request in any order leave in each cell the value that all its writes agree on. -/
theorem cell?_applyAccesses_of_requesting {w v : Word} {l : Link} {as : List HostAccess} {i : Nat} (hw : hiByte w ≠ 0#8)
    (hl : l.requesting w) (has : ∀ a ∈ as, partOfRequest w a) (hi : i < l.x.size) (hmem : HostAccess.write i v ∈ as)
    (hagree : ∀ u, HostAccess.write i u ∈ as → u = v) : (applyAccesses l as).x.cell? i = some v := by
  obtain ⟨before, after, rfl⟩ := List.append_of_mem hmem
  rw [applyAccesses_append]
  have hbefore : (applyAccesses l before).requesting w :=
    requesting_applyAccesses hl fun a ha => has a (List.mem_append_left _ ha)
  exact cell?_applyAccesses_of_agree (l := applyAccess (applyAccesses l before) (.write i v)) (by simpa using hi)
    (cell?_applyAccess_of_requesting hw hbefore (has _ hmem) (by simpa using hi))
    fun u hu => hagree u (List.mem_append_right _ (List.mem_cons_of_mem _ hu))

/-- Writes are not answered. -/
theorem answered_applyAccesses_of_requesting {w : Word} {l : Link} {as : List HostAccess}
    (has : ∀ a ∈ as, partOfRequest w a) : (applyAccesses l as).answered = l.answered := by
  refine applyAccesses_induction (P := fun m => m.answered = l.answered) rfl fun m hm a ha => ?_
  rcases applyAccess_cases m a with ⟨-, he⟩ | ⟨-, he⟩ <;> rw [he]
  · exact hm
  · cases a with
    | read j => exact (has _ ha).elim
    | write j u => exact hm

/-- A transaction of the writes of a request, in any order, leaves the request in the cells (20_memory.md R67, R68). -/
theorem request_written {l : Link} {code filler : Byte} {args : List Byte} {writes : List HostAccess}
    (hcode : code ≠ 0#8) (hlen : args.length ≤ l.x.maxBytes) (hl : l.requesting (requestWord code args))
    (hwrites : writes.Perm (hostRequest code args filler)) :
    (applyAccesses l writes).x.control = requestWord code args ∧
    (∀ i < args.length, payloadByte (applyAccesses l writes).x.payload i = args[i]?) ∧
    (applyAccesses l writes).requesting (requestWord code args) ∧
    (applyAccesses l writes).answered = l.answered := by
  obtain ⟨hmax, hfit⟩ := Nat.le_min.mp hlen
  have hw : hiByte (requestWord code args) ≠ 0#8 := by simpa using hcode
  have hpart : ∀ a ∈ writes, partOfRequest (requestWord code args) a :=
    fun a ha => partOfRequest_of_mem_hostRequest hmax (hwrites.mem_iff.mp ha)
  refine ⟨?_, fun i hi => ?_, requesting_applyAccesses hl hpart, answered_applyAccesses_of_requesting hpart⟩
  · exact Option.some.inj (cell?_applyAccesses_of_requesting (i := 0) hw hl hpart (Nat.succ_pos _)
      (hwrites.mem_iff.mpr (write_zero_mem_hostRequest.mpr rfl))
      fun u hu => write_zero_mem_hostRequest.mp (hwrites.mem_iff.mp hu))
  · have hk : i / 2 < (packWith filler args).length := by simp only [length_packWith, ceilHalf]; omega
    have hc : (packWith filler args)[i / 2]? = some (packWith filler args)[i / 2] := List.getElem?_eq_getElem hk
    have hcell : (applyAccesses l writes).x.payload[i / 2]? = some (packWith filler args)[i / 2] :=
      cell?_applyAccesses_of_requesting (i := i / 2 + 1) hw hl hpart (by omega)
        (hwrites.mem_iff.mpr (write_succ_mem_hostRequest.mpr hc))
        fun u hu => Option.some.inj ((write_succ_mem_hostRequest.mp (hwrites.mem_iff.mp hu)).symm.trans hc)
    rw [← payloadByte_packWith hi]
    exact congrArg (Option.map _) (hcell.trans hc.symm)

/-! ### The host's reads, and what HOSTRSP makes of the answers -/

/-- The answer to a host access of cells that stay as they are: a read of a cell that exists is answered with it
(20_memory.md R51). -/
def RegFile.answerTo (x : RegFile) : HostAccess → Option (Nat × Word)
  | .read i => (x.cell? i).map (i, ·)
  | .write _ _ => none

@[simp] theorem answerTo_read (x : RegFile) (i : Nat) : x.answerTo (.read i) = (x.cell? i).map (i, ·) := rfl

theorem applyAccess_read {l : Link} {i : Nat} {w : Word} (hw : l.x.cell? i = some w)
    (ha : l.allows (.read i) = true) : applyAccess l (.read i) =
      { l with answered := l.answered ++ [(i, w)], host := l.host.after l.x (.read i), sending := 0 } := by
  simp only [applyAccess, ha, if_true, Link.land, hw, Link.sendingAfter]

/-- Any host may read `x[0]`, and is answered with it (20_memory.md R66). -/
theorem applyAccess_read_zero (l : Link) : applyAccess l (.read 0) =
    { l with answered := l.answered ++ [(0, l.x.control)], host := l.host.after l.x (.read 0), sending := 0 } :=
  applyAccess_read rfl ((allows_read_iff l 0).mpr (.inr (.inl rfl)))

/-- A host that only reads `x[0]` is answered with it each time, and has asked what it had asked (20_memory.md R69). -/
theorem applyAccesses_read_zero (l : Link) (m : Nat) :
    (applyAccesses l (List.replicate m (.read 0))).x = l.x ∧
    (applyAccesses l (List.replicate m (.read 0))).answered = l.answered ++ List.replicate m (0, l.x.control) ∧
    (applyAccesses l (List.replicate m (.read 0))).host.asked = l.host.asked := by
  induction m generalizing l with
  | zero => simp [applyAccesses]
  | succ m ih =>
    have hread := applyAccess_read_zero l
    obtain ⟨hx, hans, hasked⟩ := ih (applyAccess l (.read 0))
    rw [hread] at hx hans hasked
    simp only [List.replicate_succ, applyAccesses, List.foldl_cons] at hx hans hasked ⊢
    rw [hread]
    exact ⟨hx, by simp [hans], hasked⟩

/-- Payload cells that the host may read are all answered (20_memory.md R66 b). -/
theorem applyAccesses_hostReads {l : Link} {a n : Nat} (hfit : a + n ≤ l.x.payload.length)
    (hmay : l.rendezvous = false ∨ l.x.control.toNat < 256 ∧ a + n ≤ l.host.covered) :
    (applyAccesses l (hostReads (a + 1) n)).x = l.x ∧
    (applyAccesses l (hostReads (a + 1) n)).answered =
      l.answered ++ (hostReads (a + 1) n).filterMap l.x.answerTo := by
  induction n generalizing l a with
  | zero => simp [applyAccesses, hostReads]
  | succ n ih =>
    have hcell : l.x.cell? (a + 1) = some l.x.payload[a] := List.getElem?_eq_getElem (by omega)
    have hread := applyAccess_read hcell ((allows_read_iff l (a + 1)).mpr (hmay.imp_right fun h => .inr (by omega)))
    obtain ⟨hx, hans⟩ := ih (l := applyAccess l (.read (a + 1))) (a := a + 1) (by rw [hread]; simp only; omega)
      (by rw [hread]; exact hmay.imp_right fun h => ⟨h.1, by simp only [HostView.after]; omega⟩)
    rw [hread] at hx hans
    simp only [hostReads, applyAccesses, List.foldl_cons, hread] at hx hans ⊢
    exact ⟨hx, by simp [hans, hcell]⟩

/-- HOSTRSP, given the answers to the reads that it makes of cells that stay as they are, ends where its run ends. -/
theorem foldl_take_run (x : RegFile) (n : Nat) (h : HostRsp) :
    ((HostRsp.run x n h).1.filterMap x.answerTo).foldl HostRsp.take h = (HostRsp.run x n h).2 := by
  induction n generalizing h with
  | zero => rfl
  | succ n ih =>
    rw [HostRsp.run]
    split
    · rfl
    · split
      · rename_i hcell; simp [hcell]
      · rename_i hcell; simp [hcell, ih]

/-- While the request is pending HOSTRSP polls on (20_memory.md R69). -/
theorem foldl_take_pending {w : Word} (hw : hiByte w ≠ 0#8) (m : Nat) :
    (List.replicate m (0, w)).foldl HostRsp.take .polling = .polling := by
  induction m with
  | zero => rfl
  | succ m ih => simpa [List.replicate_succ, HostRsp.take, HostRsp.cell, hw] using ih

/-- HOSTRSP waits for the next payload cell until it has all of the response. -/
theorem collect_of_lt {resc : Byte} {cells : List Word} (h : cells.length < ceilHalf resc.toNat) :
    HostRsp.collect resc cells = .reading resc cells := by
  rw [HostRsp.collect, unpack_eq_none_iff.mpr h]

/-- From a response of which it has `j` cells, HOSTRSP reads the next ones in their order. -/
theorem run_collect {x : RegFile} {resc : Byte} {j n : Nat} (hfit : j + n ≤ ceilHalf resc.toNat)
    (hcells : j + n ≤ x.payload.length) :
    HostRsp.run x n (HostRsp.collect resc (x.payload.take j)) =
      (hostReads (j + 1) n, HostRsp.collect resc (x.payload.take (j + n))) := by
  induction n generalizing j with
  | zero => rfl
  | succ n ih =>
    have hj : j < x.payload.length := by omega
    have hlen : (x.payload.take j).length = j := List.length_take_of_le hj.le
    have hcell : x.cell? (j + 1) = some x.payload[j] := List.getElem?_eq_getElem hj
    have htake : (HostRsp.reading resc (x.payload.take j)).take (j + 1, x.payload[j]) =
        HostRsp.collect resc (x.payload.take (j + 1)) := by
      simp [HostRsp.take, HostRsp.cell, hlen]
    rw [collect_of_lt (by omega), HostRsp.run]
    simp only [HostRsp.cell, hlen, hcell, htake]
    rw [ih (by omega) (by omega), hostReads, (by omega : j + (n + 1) = j + 1 + n)]

/-- Over the cells of a response HOSTRSP makes the reads of `hostReadback`, and ends with the result (20_memory.md
R69). -/
theorem run_respond {x : RegFile} {res : List Byte} (hmax : res.length ≤ 255) (hfit : ceilHalf res.length ≤ x.size - 1) :
    HostRsp.run (x.respond res) (1 + ceilHalf res.length) .polling = (hostReadback res.length, .done res) := by
  obtain ⟨hlen, hbytes, -, -⟩ := holdsResult_respond hfit
  have hcount := toNat_ofNat_length hmax
  have hstart : HostRsp.polling.take (0, (x.respond res).control) =
      HostRsp.collect (BitVec.ofNat 8 res.length) ((x.respond res).payload.take 0) := by
    simp [HostRsp.take, HostRsp.cell, encodeControl]
  have hend : unpack ((x.respond res).payload.take (ceilHalf res.length)) res.length = some res :=
    unpack_of_payloadByte fun i hi => by rw [payloadByte_take _ (by simp only [ceilHalf]; omega), hbytes i hi]
  have hcells := run_collect (x := x.respond res) (resc := BitVec.ofNat 8 res.length) (j := 0)
    (n := ceilHalf res.length) (by rw [hcount, Nat.zero_add]) (by simpa [hlen, RegFile.size] using hfit)
  rw [Nat.add_comm 1, HostRsp.run]
  simp only [HostRsp.cell, RegFile.cell?, hstart, hcells]
  simp [hostReadback, HostRsp.collect, hcount, hend]

/-- The reads of HOSTRSP at a response that the host asked for are all answered (20_memory.md R66 b). -/
theorem applyAccesses_hostReadback {l : Link} {n : Nat} (hcontrol : l.x.control.toNat = n) (hmax : n ≤ 255)
    (hfit : ceilHalf n ≤ l.x.payload.length) (hasked : l.rendezvous = true → l.host.asked = true) :
    (applyAccesses l (hostReadback n)).x = l.x ∧
    (applyAccesses l (hostReadback n)).answered = l.answered ++ (hostReadback n).filterMap l.x.answerTo := by
  have hread := applyAccess_read_zero l
  have hcovered : l.rendezvous = true → (applyAccess l (.read 0)).host.covered = ceilHalf n := fun hr => by
    have h0 := (hiByte_eq_zero l.x.control).mpr (by omega)
    simp [hread, HostView.after, hasked hr, h0, loByte_toNat, hcontrol, Nat.mod_eq_of_lt (Nat.lt_succ_of_le hmax)]
  obtain ⟨hx, hans⟩ := applyAccesses_hostReads (l := applyAccess l (.read 0)) (a := 0) (n := ceilHalf n)
    (by simpa [hread] using hfit) (by
      cases hr : l.rendezvous with
      | false => exact .inl (by simp [hread, hr])
      | true => exact .inr ⟨by simp [hread]; omega, by simp [hcovered hr]⟩)
  rw [hread] at hx hans
  simp only [hostReadback, applyAccesses, List.foldl_cons, hread] at hx hans ⊢
  exact ⟨hx, by simp [hans, RegFile.cell?]⟩

/-- The POLL that takes in a host's request, and its reads of `x[0]` after it, leaves the request in the cells. -/
theorem polled_of_request {s : State} {code filler : Byte} {args : List Byte} {m : Nat} {writes : List HostAccess}
    (hhost : s.H.rendezvous = true → s.isIdle = true ∧ s.H.host.sawIdle = true ∧ s.H.host.wrote = 0)
    (hwrites : writes.Perm (hostRequest code args filler)) (hcode : code ≠ 0#8) (hlen : args.length ≤ s.x.maxBytes)
    (hbatch : s.H.next.accesses = writes ++ List.replicate m (.read 0)) :
    s.polled.x.control = requestWord code args ∧
    (∀ i < args.length, payloadByte s.polled.x.payload i = args[i]?) ∧
    (s.H.rendezvous = true → s.polled.host.asked = true) ∧
    s.polled.answered = s.H.answered ++ List.replicate m (0, requestWord code args) := by
  have hstart : s.link.requesting (requestWord code args) := fun hr => by
    obtain ⟨hidle, hsaw, hwrote⟩ := hhost hr
    exact .inl ⟨(isIdle_iff s).mp hidle, hsaw, hwrote ▸ Nat.zero_le _⟩
  obtain ⟨hcontrol, hbytes, hend, hquiet⟩ := request_written hcode hlen hstart hwrites
  obtain ⟨hx, hans, hasked⟩ := applyAccesses_read_zero (applyAccesses s.link writes) m
  have hpolled : s.polled = applyAccesses (applyAccesses s.link writes) (List.replicate m (.read 0)) := by
    rw [State.polled, hbatch, applyAccesses_append]
  rw [hpolled, hx, hans, hasked, hcontrol, hquiet]
  refine ⟨rfl, hbytes, fun hr => ?_, rfl⟩
  rcases hend (by simpa using hr) with ⟨h0, -, -⟩ | ⟨-, -, h⟩
  · exact absurd (by simpa [hcontrol] using h0) hcode
  · exact h

/-- The state after a turn of the loop whose POLL took in a request that was served then, with its result and the
environment that the handler left. -/
def State.afterTurn (s : State) (res : List Byte) (env : Env) : State :=
  { s.afterPoll with x := s.polled.x.respond res, E := env, phase := .poll }

@[simp] theorem afterTurn_x (s : State) (res : List Byte) (env : Env) :
    (s.afterTurn res env).x = s.polled.x.respond res := rfl
@[simp] theorem afterTurn_H (s : State) (res : List Byte) (env : Env) : (s.afterTurn res env).H = s.afterPoll.H := rfl

/-- The step after the POLL that took in a request serves it (41_dispatcher.md R130, R133). -/
theorem step_afterPoll_served {s : State} {code argc : Byte} {args bs : List Byte} {leaves : Option Hardware}
    {hd : Handler} (hf : s.fault = none) (hport : s.port = []) (hcode : code ≠ 0#8)
    (hcontrol : s.polled.x.control = encodeControl code argc) (hlen : args.length = argc.toNat)
    (hbytes : ∀ i < args.length, payloadByte s.polled.x.payload i = args[i]?)
    (hT : s.T[code.toNat]? = some (some hd)) (hans : s.E.answer = .returns bs leaves)
    (hfit : (handle hd args s.E).1.length ≤ 2 * (s.x.size - 1)) :
    step s.afterPoll = .next (s.afterTurn (handle hd args s.E).1 (s.E.after (handle hd args s.E).2)) := by
  have hp : hiByte s.afterPoll.x.control ≠ 0#8 := by simpa [hcontrol, encodeControl] using hcode
  have hreq : request { s.afterPoll with phase := .poll } .process = some (code, argc) := by
    simp [request, hcontrol, decodeControl, encodeControl]
  rw [step_serve_of_pending (s := s.afterPoll) hf hport rfl hp]
  exact exec_request_served hreq hcode hlen hbytes hT hans (by simpa using hfit)

/-- Settles O60: the first POLL leaves the request in the cells, the next step serves it, and the second POLL answers
the reads of HOSTRSP's run over the response. -/
theorem requestResponseCycle : Obligations.RequestResponseCycle := by
  intro s code filler args bs leaves h m nd nd' rest writes hf hport hphase hhost hwrites hcode hlen hT hans hfit hq
  obtain ⟨hcontrol, hbytes, hasked, hanswered⟩ :=
    polled_of_request (m := m) hhost hwrites hcode hlen (by simp [Transport.next, hq])
  obtain ⟨hargc, -⟩ := Nat.le_min.mp hlen
  obtain ⟨hresc, hfit⟩ := Nat.le_min.mp hfit
  have hserve := step_afterPoll_served hf hport hcode hcontrol (toNat_ofNat_length hargc).symm hbytes hT hans hfit
  generalize (handle h args s.E).1 = res at hresc hfit hq hserve ⊢
  generalize s.E.after (handle h args s.E).2 = env at hserve ⊢
  have hcells : ceilHalf res.length ≤ s.polled.x.size - 1 := by simp only [size_polled, ceilHalf]; omega
  have hcount : (s.polled.x.respond res).control.toNat = res.length := toNat_control_respond hresc
  have hidle : hiByte (s.polled.x.respond res).control = 0#8 := (hiByte_eq_zero _).mpr (by omega)
  have hpayload : ceilHalf res.length ≤ (s.polled.x.respond res).payload.length := by
    obtain ⟨hlength, -, -, -⟩ := holdsResult_respond hcells
    simpa [hlength, RegFile.size] using hcells
  have hbatch : (s.afterTurn res env).H.next.accesses = hostReadback res.length := by simp [Transport.next, hq]
  obtain ⟨hx, hread⟩ := applyAccesses_hostReadback (l := (s.afterTurn res env).link) hcount hresc hpayload
    (fun hr => hasked (by simpa using hr))
  rw [← hbatch] at hx hread
  have hkept : (s.afterTurn res env).polled.x = s.polled.x.respond res := hx
  have hrun := run_respond hresc hcells
  refine ⟨s.afterPoll, _, (s.afterTurn res env).afterPoll, step_eq_afterPoll hf hport hphase,
    afterPoll_result_of_pending (by simpa [hcontrol] using hcode), hserve, rfl,
    (isIdle_iff _).mpr hidle, step_eq_afterPoll hf hport rfl, afterPoll_result_of_idle (hkept ▸ hidle), hkept, hrun,
    List.replicate m (0, requestWord code args) ++
      (hostReadback res.length).filterMap (s.polled.x.respond res).answerTo, ?_, ?_⟩
  · rw [← List.append_assoc, ← hanswered, ← hbatch]
    exact hread
  · rw [List.foldl_append, foldl_take_pending (by simpa using hcode)]
    simpa [hrun] using foldl_take_run (s.polled.x.respond res) (1 + ceilHalf res.length) .polling

end Sys2Proof.Machine

/-! SUPPORT. The commands' statements: what each canonical handler returns and sets in the hardware (42_commands.md R151
to R172), over the one fact that a command whose handler returns is answered with what that handler gives. -/

namespace Sys2Proof.Machine

/-! ### Bytes joined to words -/

theorem toNat_append_byte {n : Nat} (w : BitVec n) (b : Byte) : (w ++ b).toNat = w.toNat * 256 + b.toNat := by
  rw [BitVec.toNat_append, ← Nat.shiftLeft_add_eq_or_of_lt b.isLt, Nat.shiftLeft_eq]

theorem joinBytes_eq_append (hi lo : Byte) : joinBytes hi lo = hi ++ lo :=
  BitVec.eq_of_toNat_eq ((joinBytes_toNat hi lo).trans (toNat_append_byte hi lo).symm)

/-- The clock's four bytes as a number, the first the most significant (42_commands.md R163). -/
theorem joinFour_eq_ofNat (a b c d : Byte) :
    joinFour a b c d = BitVec.ofNat 32 (((a.toNat * 256 + b.toNat) * 256 + c.toNat) * 256 + d.toNat) := by
  rw [← toNat_append_byte a b, ← toNat_append_byte (a ++ b) c, ← toNat_append_byte (a ++ b ++ c) d,
    BitVec.ofNat_toNat, BitVec.setWidth_eq, joinFour]

/-! ### The pins -/

@[simp] theorem pinGet_pinPut_self {α : Type} (v : Pins α) (pin : Byte) (a : Option α) :
    pinGet (pinPut v pin a) pin = a := by
  simp [pinGet, pinPut]

theorem pinGet_pinPut_of_ne {α : Type} (v : Pins α) {pin q : Byte} (a : Option α) (h : q ≠ pin) :
    pinGet (pinPut v pin a) q = pinGet v q :=
  Vector.getElem_set_ne _ _ fun he => h (BitVec.eq_of_toNat_eq he.symm)

/-! ### Responses of at most one cell, and the bytes in place and supplied -/

theorem respond_nil (x : RegFile) : x.respond [] = { x with control := 0x0000 } := rfl

/-- A result that packs to one cell is stored in `x[1]` alone. -/
theorem respond_of_pack_eq_singleton (x : RegFile) {res : List Byte} {w : Word} (h : pack res = [w]) :
    x.respond res = { control := BitVec.ofNat 16 res.length, payload := x.payload.set 0 w } := by
  have hcells : ceilHalf res.length = 1 := by rw [← length_pack, h, List.length_singleton]
  have hmax : res.length ≤ 255 := by unfold ceilHalf at hcells; omega
  rw [RegFile.respond, encodeControl_zero hmax, h]
  rfl

theorem pack_singleton (b : Byte) : pack [b] = [b ++ (0 : Byte)] := by rw [← joinBytes_eq_append, pack]

theorem pack_pair (a b : Byte) : pack [a, b] = [a ++ b] := by rw [← joinBytes_eq_append, pack, pack]

/-- Argument bytes in place show a payload cell. -/
theorem two_le_size_of_hasArgs {s : State} {b : Byte} {args : List Byte} (h : s.hasArgs (b :: args)) :
    2 ≤ s.x.size :=
  Nat.succ_le_succ (Nat.zero_lt_of_lt (lt_of_payloadByte_eq_some (h 0 (Nat.succ_pos _))))

/-- At most 255 bytes that the hardware supplies are all taken (41_dispatcher.md R123). -/
theorem bytes_of_returns {e : Env} {bs : List Byte} {leaves : Option Hardware} (hans : e.answer = .returns bs leaves)
    (hlen : bs.length ≤ 255) : e.bytes = bs := by
  rw [Env.bytes, hans]
  exact List.take_of_length_le hlen

/-! ### A command whose canonical handler is in the table and returns -/

section Answered

variable {c : Command} {s : State} {argc : Byte} {args res bs : List Byte} {leaves : Option Hardware} {hw : Hardware}
  (hargs : operands s.x argc = some args) (hT : s.T[(codeOf c).toNat]? = some (some (.canonical c)))
  (hans : s.E.answer = .returns bs leaves)

include hargs hT hans

/-- A command is answered with what its canonical handler gives, if that fits (41_dispatcher.md R130). -/
theorem exec_command (hres : canonicalHandler c args s.E = (res, hw)) (hfit : ceilHalf res.length ≤ s.x.size - 1) :
    exec (c.instr argc) s = .next { s with E := s.E.after hw, x := s.x.respond res } := by
  have hcall : call (.canonical c) args s.E = .returns res (s.E.after hw) := by
    rw [call_of_returns _ args hans, handle, hres]
  rw [exec_eq_serveRequest (request_instr s c argc)]
  exact serveRequest_served (codeOf_ne_zero c) hargs hT hcall hfit

/-- A command that returns no bytes changes no payload cell, and completes on every register file. -/
theorem exec_command_nil (hres : canonicalHandler c args s.E = ([], hw)) :
    exec (c.instr argc) s = .next { s with x := { s.x with control := 0x0000 }, E := s.E.after hw } := by
  rw [exec_command hargs hT hans hres (Nat.zero_le _), respond_nil]

/-- A command whose result packs to one cell has it in `x[1]`, and keeps every other payload cell. -/
theorem exec_command_cell {w : Word} (hres : canonicalHandler c args s.E = (res, hw)) (hcell : pack res = [w])
    (hsize : 2 ≤ s.x.size) :
    exec (c.instr argc) s = .next { s with
      x := { control := BitVec.ofNat 16 res.length, payload := s.x.payload.set 0 w }, E := s.E.after hw } := by
  have hfit : ceilHalf res.length ≤ s.x.size - 1 := by
    rw [← length_pack, hcell, List.length_singleton]
    exact Nat.le_sub_one_of_lt hsize
  rw [exec_command hargs hT hans hres hfit, respond_of_pack_eq_singleton s.x hcell]

/-- A command that returns one byte has it in the high half of `x[1]`, and 0 in the filler (20_memory.md R54). -/
theorem exec_command_byte {b : Byte} (hres : canonicalHandler c args s.E = ([b], hw)) (hsize : 2 ≤ s.x.size) :
    exec (c.instr argc) s = .next { s with
      x := { control := 0x0001, payload := s.x.payload.set 0 (b ++ (0 : Byte)) }, E := s.E.after hw } :=
  exec_command_cell hargs hT hans hres (pack_singleton b) hsize

/-- A command that returns the bytes that the hardware supplies has them over the old payload cells. -/
theorem exec_command_supplied (hres : canonicalHandler c args s.E = (s.E.bytes, hw)) (hmax : bs.length ≤ 255)
    (hfit : bs.length ≤ 2 * (s.x.size - 1)) :
    ∃ p : List Word, holdsResult p s.x.payload bs ∧ exec (c.instr argc) s = .next { s with
      x := { control := BitVec.ofNat 16 bs.length, payload := p }, E := s.E.after hw } := by
  rw [bytes_of_returns hans hmax] at hres
  have hcells : ceilHalf bs.length ≤ s.x.size - 1 := by simp only [ceilHalf]; omega
  refine ⟨_, holdsResult_respond hcells, ?_⟩
  rw [exec_command hargs hT hans hres hcells, ← encodeControl_zero hmax, ← control_respond s.x]

end Answered

/-! ### What single handlers give -/

/-- A success changes the one pin's servo; what a failure leaves is the oracle's (42_commands.md R157, R158; log 18). -/
def servoPut (e : Env) (pin : Byte) (angle : Option Byte) : Hardware :=
  if e.byte 0 = 0 then e.leaves else { e.leaves with servos := pinPut e.leaves.servos pin angle }

theorem canonicalHandler_sattach (pin : Byte) (e : Env) :
    canonicalHandler .sattach [pin] e = ([e.byte 0], servoPut e pin (some (e.byte 1))) := rfl

theorem canonicalHandler_sdetach (pin : Byte) (e : Env) :
    canonicalHandler .sdetach [pin] e = ([e.byte 0], servoPut e pin none) := rfl

theorem canonicalHandler_swrite_detached {pin : Byte} {e : Env} (angle : Byte) (h : pinGet e.hw.servos pin = none) :
    canonicalHandler .swrite [pin, angle] e = ([0], e.leaves) := by
  simp only [canonicalHandler, swriteHandler, h]

theorem canonicalHandler_swrite_attached {pin : Byte} {e : Env} (angle : Byte)
    (h : (pinGet e.hw.servos pin).isSome = true) :
    canonicalHandler .swrite [pin, angle] e = ([e.byte 0], servoPut e pin (some angle)) := by
  obtain ⟨old, hold⟩ := Option.isSome_iff_exists.mp h
  simp only [canonicalHandler, swriteHandler, hold, servoPut]

theorem servoPut_eq (e : Env) (pin : Byte) (angle : Option Byte) : servoPut e pin angle =
    { e.leaves with servos := if e.byte 0 = 0 then e.leaves.servos else pinPut e.leaves.servos pin angle } := by
  unfold servoPut
  split <;> rfl

theorem servoPut_of_failure {e : Env} (h : e.byte 0 = 0) (pin : Byte) (angle : Option Byte) :
    servoPut e pin angle = e.leaves := if_pos h

theorem servoPut_of_success {e : Env} (h : e.byte 0 ≠ 0) (pin : Byte) (angle : Option Byte) :
    servoPut e pin angle = { e.leaves with servos := pinPut e.leaves.servos pin angle } := if_neg h

/-- After a success the pin's servo is the new one, and every other part of the hardware is as the oracle leaves it. -/
theorem servoPut_success_frame {e : Env} (h : e.byte 0 ≠ 0) (pin : Byte) (angle : Option Byte) :
    servoPut e pin angle = { e.leaves with servos := (servoPut e pin angle).servos } ∧
      pinGet (servoPut e pin angle).servos pin = angle ∧
      ∀ q, q ≠ pin → pinGet (servoPut e pin angle).servos q = pinGet e.leaves.servos q := by
  rw [servoPut_of_success h]
  exact ⟨rfl, pinGet_pinPut_self _ _ _, fun _ hq => pinGet_pinPut_of_ne _ _ hq⟩

/-- On an arity mismatch a servo command's handler leaves what the oracle leaves (42_commands.md R172; log 17, 19). -/
theorem canonicalHandler_servo_of_not_takesCount {c : Command} {args : List Byte} (e : Env) (hservo : isServoCommand c)
    (h : ¬ takesCount c args.length) : canonicalHandler c args e = (servoMismatch e, e.leaves) := by
  rcases hservo with rfl | rfl | rfl | rfl
  all_goals
    simp only [canonicalHandler, sattachHandler, sdetachHandler, swriteHandler, sreadHandler]
    split
    · simp [takesCount] at h
    · rfl

theorem servoMismatch_cases (e : Env) : servoMismatch e = [] ∨ servoMismatch e = [0] := by
  unfold servoMismatch
  split
  · exact .inr rfl
  · exact .inl rfl

/-- I2CWRITE adds its write to the bus record, but that without data the oracle may leave it out (42_commands.md R164;
log 20). -/
theorem canonicalHandler_i2cwrite (addr reg : Byte) (data : List Byte) (e : Env) :
    canonicalHandler .i2cwrite (addr :: reg :: data) e =
      ([], if data = [] ∧ e.says = false then e.leaves
        else { e.leaves with bus := e.leaves.bus ++ [.i2cWrite addr reg data] }) := by
  simp only [canonicalHandler, i2cwriteHandler, Bool.and_eq_true, Bool.not_eq_true', List.isEmpty_iff]

/-! ### The statements on IDLE and the pin commands -/

/-- Settles O35: the row IDLE answers the state it is given. -/
theorem idleIsNoOp : Obligations.IdleIsNoOp := fun _ _ => rfl

/-- Settles O36: both handlers return no bytes, and set their part of the one pin. -/
theorem pinmodeAndDwriteSetPin : Obligations.PinmodeAndDwriteSetPin :=
  ⟨fun _ _ _ _ _ hargs hT hans => exec_command_nil (c := .pinmode) (operands_of_hasArgs rfl hargs) hT hans rfl,
    fun _ _ _ _ _ hargs hT hans => exec_command_nil (c := .dwrite) (operands_of_hasArgs rfl hargs) hT hans rfl⟩

/-- Settles O37: the pin byte in place shows the payload cell that either result needs. -/
theorem pinReadsReturnBytes : Obligations.PinReadsReturnBytes :=
  ⟨fun _ _ _ _ hargs hT hans => exec_command_byte (c := .dread) (operands_of_hasArgs rfl hargs) hT hans rfl
      (two_le_size_of_hasArgs hargs),
    fun _ _ _ _ hargs hT hans => exec_command_cell (c := .aread) (operands_of_hasArgs rfl hargs) hT hans rfl
      (pack_pair _ _) (two_le_size_of_hasArgs hargs)⟩

/-- Settles O38: the value that the handler joins is the two bytes, the high one first. -/
theorem awriteWritesValue : Obligations.AwriteWritesValue := by
  intro s pin hi lo bs leaves hargs hT hans
  rw [← joinBytes_eq_append]
  exact exec_command_nil (c := .awrite) (operands_of_hasArgs rfl hargs) hT hans rfl

/-! ### The statements on the servo commands -/

/-- Settles O39: both handlers put a servo, or none, at the pin after a success. -/
theorem servoAttachDetach : Obligations.ServoAttachDetach := by
  refine ⟨fun s pin bs leaves hargs hT hans => ?_, fun s pin bs leaves hargs hT hans => ?_⟩
  · refine ⟨servoPut s.E pin (some (s.E.byte 1)), exec_command_byte (c := .sattach)
      (operands_of_hasArgs rfl hargs) hT hans (canonicalHandler_sattach pin s.E) (two_le_size_of_hasArgs hargs),
      fun hfail => servoPut_of_failure hfail pin _, fun hok => ?_⟩
    obtain ⟨hrest, hpin, hothers⟩ := servoPut_success_frame hok pin (some (s.E.byte 1))
    exact ⟨hrest, Option.isSome_of_eq_some hpin, hothers⟩
  · exact ⟨servoPut s.E pin none, exec_command_byte (c := .sdetach)
      (operands_of_hasArgs rfl hargs) hT hans (canonicalHandler_sdetach pin s.E) (two_le_size_of_hasArgs hargs),
      fun hfail => servoPut_of_failure hfail pin _, fun hok => servoPut_success_frame hok pin none⟩

/-- Settles O40, by whether a servo is attached to the pin. -/
theorem servoWriteReportsStatus : Obligations.ServoWriteReportsStatus := by
  intro s pin angle bs leaves hargs hT hans
  have hops : operands s.x 2 = some [pin, angle] := operands_of_hasArgs rfl hargs
  have hsize := two_le_size_of_hasArgs hargs
  refine ⟨fun hnone => ?_, fun hsome => ?_⟩
  · exact exec_command_byte (c := .swrite) hops hT hans (canonicalHandler_swrite_detached angle hnone) hsize
  · rw [← servoPut_eq]
    exact exec_command_byte (c := .swrite) hops hT hans (canonicalHandler_swrite_attached angle hsome) hsize

/-- Settles O41, with the byte that the handler returns: the angle, or a free one where no servo is attached. -/
theorem servoReadReturnsAngle : Obligations.ServoReadReturnsAngle := by
  intro s pin bs leaves hargs hT hans
  refine ⟨(pinGet s.E.hw.servos pin).getD (s.E.byte 0), fun angle hangle => by rw [hangle, Option.getD_some], ?_⟩
  exact exec_command_byte (c := .sread) (operands_of_hasArgs rfl hargs) hT hans rfl (two_le_size_of_hasArgs hargs)

/-- Settles O49: the handler returns `[]` or `[0]`, whatever the bytes of the wrong count are. -/
theorem servoArityMismatch : Obligations.ServoArityMismatch := by
  intro c s argc bs leaves hfit hsize hT hans hmis
  obtain ⟨args, hargs, hlen⟩ := exists_operands hfit
  have hservo : isServoCommand c := by
    rcases hmis with ⟨rfl, -⟩ | ⟨rfl | rfl | rfl, -⟩ <;> simp [isServoCommand]
  have hcount : ¬ takesCount c args.length := by
    rw [hlen]
    rcases hmis with ⟨rfl, hne⟩ | ⟨rfl | rfl | rfl, hne⟩ <;> simp only [takesCount] <;> bv_omega
  have hres := canonicalHandler_servo_of_not_takesCount s.E hservo hcount
  rcases servoMismatch_cases s.E with hempty | hzero
  · exact .inl (exec_command_nil hargs hT hans (hempty ▸ hres))
  · exact .inr (exec_command_byte hargs hT hans (hzero ▸ hres) hsize)

/-! ### The statements on the bus commands -/

/-- Settles O42: with count 0 there is no byte to read, and each handler returns none. -/
theorem busBeginEnd : Obligations.BusBeginEnd := by
  intro s bs leaves hans
  have hops : operands s.x 0 = some [] := operands_of_hasArgs rfl fun _ hi => absurd hi (Nat.not_lt_zero _)
  exact ⟨fun hT => exec_command_nil (c := .i2cbegin) hops hT hans rfl,
    fun hT => exec_command_nil (c := .i2cend) hops hT hans rfl,
    fun hT => exec_command_nil (c := .spibegin) hops hT hans rfl,
    fun hT => exec_command_nil (c := .spiend) hops hT hans rfl⟩

/-- Settles O43: the value that the handler joins, as a number. -/
theorem i2cClockBigEndian : Obligations.I2cClockBigEndian := by
  intro s a b c d bs leaves hargs hT hans
  rw [← joinFour_eq_ofNat]
  exact exec_command_nil (c := .i2cclock) (operands_of_hasArgs rfl hargs) hT hans rfl

/-- Settles O44: only a write without data may be left out of the bus record, and only if the oracle says so. -/
theorem i2cWriteReturnsNothing : Obligations.I2cWriteReturnsNothing := by
  intro s addr reg argc data bs leaves hargs hargc hT hans
  have hexec := exec_command_nil (c := .i2cwrite) (operands_of_hasArgs (args := addr :: reg :: data) hargc.symm hargs)
    hT hans (canonicalHandler_i2cwrite addr reg data s.E)
  by_cases hnone : data = [] ∧ s.E.says = false
  · rw [if_pos hnone] at hexec
    obtain ⟨hnil, -⟩ := hnone
    exact ⟨s.E.leaves.bus, hexec, fun hdata => absurd hnil hdata, fun _ => .inl rfl⟩
  · rw [if_neg hnone] at hexec
    exact ⟨_, hexec, fun _ => rfl, fun hdata => .inr (hdata ▸ rfl)⟩

/-- Settles O45: the handler returns the supplied bytes, whatever its count byte says. -/
theorem i2cReadReturnsData : Obligations.I2cReadReturnsData :=
  fun _ _ _ _ _ _ hargs hT hans => exec_command_supplied (c := .i2cread) (operands_of_hasArgs rfl hargs) hT hans rfl

/-- Settles O46: the handler returns no bytes and records the six it is given. -/
theorem spiSettingsRecorded : Obligations.SpiSettingsRecorded :=
  fun _ _ _ _ _ _ _ _ _ hargs hT hans =>
    exec_command_nil (c := .spiset) (operands_of_hasArgs rfl hargs) hT hans rfl

/-- Settles O47: the handler returns the supplied bytes, however many it was given to send. -/
theorem spiTransferReturnsData : Obligations.SpiTransferReturnsData :=
  fun _ cs _ data _ _ hargs hargc hT hans =>
    exec_command_supplied (c := .spixfer) (operands_of_hasArgs (args := cs :: data) hargc.symm hargs) hT hans rfl

end Sys2Proof.Machine

/-! SUPPORT. The exceptions' statements: where a request that keeps the host's duties stops (60_exceptions.md R186, R195;
70_reset_and_hazards.md R220, R221), and which part of the state each agent changes (60_exceptions.md R194). -/

namespace Sys2Proof.Machine

/-! ### A request that can be served -/

/-- The host's duties: a request's code, a count of at most MAXBYTES, and a handler for the code (60_exceptions.md R195). -/
theorem canServe_iff {s : State} {code argc : Byte} : s.canServe code argc = true ↔
    code ≠ 0 ∧ argc.toNat ≤ s.x.maxBytes ∧ ∃ hd, s.T[code.toNat]? = some (some hd) := by
  rcases hT : s.T[code.toNat]? with _ | _ | hd <;> simp [State.canServe, hT]

theorem maxBytes_le_payload (x : RegFile) : x.maxBytes ≤ 2 * (x.size - 1) := Nat.min_le_right _ _

/-- A request whose handler returns more bytes than the payload cells hold stops, with the count of the result
(60_exceptions.md R186). -/
theorem serveRequest_resRange {code argc : Byte} {s : State} {args res : List Byte} {hd : Handler} {env : Env}
    (hcode : code ≠ 0) (hargs : operands s.x argc = some args) (hT : s.T[code.toNat]? = some (some hd))
    (hcall : call hd args s.E = .returns res env) (hlong : s.x.size - 1 < ceilHalf res.length) :
    serveRequest code argc s = .fault (.resRange (BitVec.ofNat 8 res.length)) := by
  rw [serveRequest_eq_dispatchCode hcode hargs]
  simp only [dispatchCode, hT, callAndRespond, hcall, respond, if_pos hlong, raise]

/-! ### What an instruction leaves unchanged -/

/-- Only a served request changes the environment (60_exceptions.md R194). -/
theorem exec_E {i : Instr} {s t : State} (h : exec i s = .next t) : t.E = s.E ∨ ∃ p, request s i = some p := by
  rcases exec_next h with ⟨_, -, rfl⟩ | ⟨code, argc, hreq, -⟩ | ⟨-, _, rfl⟩ | ⟨-, rfl⟩ | ⟨_, _, -, -, rfl⟩
  case inr.inl => exact .inr ⟨(code, argc), hreq⟩
  all_goals exact .inl rfl

/-- Only POLL changes the transport (60_exceptions.md R194). -/
theorem exec_H {i : Instr} {s t : State} (h : exec i s = .next t) : t.H = s.H ∨ i = .poll := by
  rcases exec_next h with ⟨_, -, rfl⟩ | ⟨_, _, -, hserve⟩ | ⟨-, _, rfl⟩ | ⟨hpoll, -⟩ | ⟨_, _, -, -, rfl⟩
  case inr.inl => rw [serveRequest_frame hserve]; exact .inl rfl
  case inr.inr.inr.inl => exact .inr hpoll
  all_goals exact .inl rfl

/-! ### The statements -/

/-- Settles O32: the arguments fit and the handler is called; it hangs, or what it returns fits or does not. -/
theorem hostDutiesSuffice : Obligations.HostDutiesSuffice := by
  intro i s code argc hreq hserve
  obtain ⟨hcode, hcount, hd, hT⟩ := canServe_iff.mp hserve
  have hfit : argc.toNat ≤ 2 * (s.x.size - 1) := hcount.trans (maxBytes_le_payload s.x)
  cases hans : s.E.answer with
  | hangs => exact .inr (.inl ⟨handlerHangStops i s code argc hd hreq hcode hfit hT hans, rfl⟩)
  | returns bs leaves =>
    obtain ⟨args, hargs, -⟩ := exists_operands hfit
    have hcall := call_of_returns hd args hans
    rw [exec_eq_serveRequest hreq]
    rcases Nat.lt_or_ge (s.x.size - 1) (ceilHalf (handle hd args s.E).1.length) with hlong | hres
    · refine .inr (.inr ⟨_, serveRequest_resRange hcode hargs hT hcall hlong, ?_⟩)
      rw [toNat_ofNat_length (length_handle_le hd args s.E)]
      simp only [ceilHalf] at hlong
      omega
    · exact .inl ⟨_, serveRequest_served hcode hargs hT hcall hres⟩

/-- Settles O55: fetch leaves the four parts as they are, and of each one `exec` says which instructions change it. -/
theorem agentsRights : Obligations.AgentsRights := by
  intro s t hstep
  obtain ⟨-, i, u, hfetch, hexec⟩ := step_next hstep
  have hframe := fetch_frame hfetch
  have hT : u.T = s.T := by rw [hframe]
  have hE : u.E = s.E := by rw [hframe]
  have hH : u.H = s.H := by rw [hframe]
  have hx : u.x = s.x := by rw [hframe]
  rw [← hT, ← hE, ← hH, ← hx]
  refine ⟨i, u, hfetch, fun hne => ?_, (exec_E hexec).resolve_left, (exec_H hexec).resolve_left, fun hne => ?_⟩
  · obtain ⟨code, hd, hi, -, -⟩ := (exec_T hexec).resolve_left hne
    exact ⟨code, hd, hi⟩
  · rcases exec_x hexec with ⟨p, hreq, -⟩ | ⟨hpoll, -, -⟩ | hsame
    · exact .inr ⟨p, hreq⟩
    · exact .inl hpoll
    · exact absurd hsame hne

end Sys2Proof.Machine

/-! SUPPORT. The stops of a request and of the table's operations (60_exceptions.md R185 to R187), what carries a
stopped run on (60_exceptions.md R188, R190), the refusal of an unassigned operation (30_encoding.md R89), and the state
after reset (10_state.md R40 to R46). -/

namespace Sys2Proof.Machine

/-! ### A count or a result that does not fit -/

/-- A count that needs a cell beyond `x[N-1]` has no operands (60_exceptions.md R185). -/
theorem operands_eq_none {x : RegFile} {argc : Byte} (h : 2 * (x.size - 1) < argc.toNat) : operands x argc = none :=
  if_pos (by simp only [ceilHalf]; omega)

theorem serveRequest_argRange {code argc : Byte} {s : State} (hcode : code ≠ 0) (hargs : operands s.x argc = none) :
    serveRequest code argc s = .fault (.argRange argc) := by
  simp only [serveRequest, if_neg hcode, hargs, raise]

/-- Settles O27: the count has no operands, and the table is not looked at. -/
theorem argRangeFaults : Obligations.ArgRangeFaults := by
  intro i s code argc hreq hcode hlong
  rw [exec_eq_serveRequest hreq, serveRequest_argRange hcode (operands_eq_none hlong)]

/-- Settles O30: the handler is called on the bytes in place, and what it returns does not fit. -/
theorem resRangeFaults : Obligations.ResRangeFaults := by
  intro i s code argc args bs leaves h hreq hcode hlen hargs hT hans hlong
  rw [exec_eq_serveRequest hreq]
  exact serveRequest_resRange hcode (operands_of_hasArgs hlen hargs) hT (call_of_returns h args hans)
    (by simp only [ceilHalf]; omega)

/-! ### A code beyond the table -/

/-- The call itself stops only at a hang or at the result (60_exceptions.md R186, R188). -/
theorem callAndRespond_ne_tableRange (h : Handler) (args : List Byte) (s : State) (code : Byte) :
    callAndRespond h args s ≠ .fault (.tableRange code) := by
  unfold callAndRespond respond raise
  split
  · simp
  · split <;> simp

/-- The look-up answers TableRange exactly for a code beyond the table, and names that code (60_exceptions.md R187). -/
theorem dispatchCode_tableRange_iff {code c : Byte} {args : List Byte} {s : State} :
    dispatchCode code args s = .fault (.tableRange c) ↔ s.T.length ≤ code.toNat ∧ code = c := by
  rw [← List.getElem?_eq_none_iff]
  rcases hT : s.T[code.toNat]? with _ | _ | hd <;> simp [dispatchCode, hT, raise, callAndRespond_ne_tableRange]

theorem exec_register_tableRange_iff {code c : Byte} {hd : Handler} {s : State} :
    exec (.register code hd) s = .fault (.tableRange c) ↔ s.T.length ≤ code.toNat ∧ code = c := by
  rw [← Nat.not_lt]
  simp only [exec, execRegister, raise]
  split <;> simp [*]

theorem length_T_le_of_serveRequest_tableRange {code argc c : Byte} {s : State}
    (h : serveRequest code argc s = .fault (.tableRange c)) : s.T.length ≤ c.toNat := by
  unfold serveRequest raise at h
  split at h
  · cases h
  · split at h
    · cases h
    · obtain ⟨hbeyond, rfl⟩ := dispatchCode_tableRange_iff.mp h
      exact hbeyond

/-- An instruction that raises TableRange names a code beyond the table (60_exceptions.md R187). -/
theorem length_T_le_of_exec_tableRange {i : Instr} {s : State} {c : Byte}
    (h : exec i s = .fault (.tableRange c)) : s.T.length ≤ c.toNat := by
  cases hreq : request s i with
  | some p => exact length_T_le_of_serveRequest_tableRange ((exec_eq_serveRequest hreq).symm.trans h)
  | none =>
    cases i <;> simp only [request, reduceCtorEq] at hreq
    case register code hd =>
      obtain ⟨hbeyond, rfl⟩ := exec_register_tableRange_iff.mp h
      exact hbeyond
    case unpack cells length =>
      simp only [exec, execUnpack, raise] at h
      split at h <;> cases h
    all_goals cases h

/-- Settles O31: a byte is never beyond 256 entries, and a code beyond the table is found so by REGISTER and by the
look-up. -/
theorem tableRangeFaults : Obligations.TableRangeFaults := by
  refine ⟨fun i s code hlen hexec => ?_, fun s code h hbeyond => exec_register_tableRange_iff.mpr ⟨hbeyond, rfl⟩,
    fun i s code argc hreq hcode hfit hbeyond => ?_⟩
  · have hbeyond := length_T_le_of_exec_tableRange hexec
    have hcode := code.isLt
    omega
  · obtain ⟨args, hargs, -⟩ := exists_operands hfit
    rw [exec_eq_serveRequest hreq, serveRequest_eq_dispatchCode hcode hargs]
    exact dispatchCode_tableRange_iff.mpr ⟨hbeyond, rfl⟩

/-! ### An operation that is refused -/

/-- No operation is assigned to a select byte of 7 or more (30_encoding.md R89; log 7). -/
theorem decodeOperation_unassigned {op : Byte} (bs : List Byte) (h : 7 ≤ op.toNat) :
    decodeOperation (op :: bs) = .error (.unassignedOp op) := by
  simp only [decodeOperation]
  split
  case h_8 => rfl
  all_goals omega

theorem step_port_refused {s : State} {b : Byte} {bs : List Byte} {e : DecodeError} (hf : s.fault = none)
    (hport : s.port = b :: bs) (hdec : decodeOperation (b :: bs) = .error e) :
    step s = .refused (.badOperation e) := by
  simp only [step, hf, fetch, hport, hdec]

/-- Settles O5: the operation at the front of the port does not decode. -/
theorem unassignedOperationRefused : Obligations.UnassignedOperationRefused :=
  fun _ _ bs hf hport hop => step_port_refused hf hport (decodeOperation_unassigned bs hop)

/-! ### A run carried on past a stop -/

theorem step_of_fault {s : State} {r : Fault} (h : s.fault = some r) : step s = .fault r := by
  simp only [step, h]

/-- A fault other than a hang is carried on by the marked state (60_exceptions.md R190). -/
theorem advance_of_fault {s : State} {r : Fault} (h : step s = .fault r) (hr : r ≠ .handlerHang) :
    s.advance = some (s.marked r) := by
  cases r with
  | handlerHang => exact absurd rfl hr
  | _ => simp only [State.advance, h]

/-- A hang is carried on by the state it is in (60_exceptions.md R188). -/
theorem advance_of_hang {s : State} (h : step s = .fault .handlerHang) : s.advance = some s := by
  simp only [State.advance, h]

/-- The mark is never cleared (60_exceptions.md R190). -/
theorem advance_keeps_mark {s t : State} {r : Fault} (hmark : s.fault = some r) (h : s.advance = some t) :
    t.fault = some r := by
  by_cases hr : r = .handlerHang
  · subst hr
    obtain rfl : s = t := Option.some.inj ((advance_of_hang (step_of_fault hmark)).symm.trans h)
    exact hmark
  · obtain rfl : s.marked r = t := Option.some.inj ((advance_of_fault (step_of_fault hmark) hr).symm.trans h)
    exact marked_fault r s

/-- Settles O51, from how a fault, a mark and a hang are carried on. -/
theorem faultMarkStays : Obligations.FaultMarkStays := fun s r =>
  ⟨fun hstep hr => ⟨_, advance_of_fault hstep hr, marked_fault r s⟩,
    fun hmark => ⟨step_of_fault hmark, fun _ => advance_keeps_mark hmark⟩, advance_of_hang⟩

/-! ### The state after reset -/

theorem isIdle_launch (t : List (Option Handler)) (p : List Word) (e : Env) (h : Transport) :
    (State.launch t p e h).isIdle = true :=
  (isIdle_iff _).mpr ((hiByte_eq_zero 0x0000).mpr (by decide))

@[simp] theorem length_t0 : Config.t0.length = 256 := by
  rw [Config.t0, List.length_map, List.length_range, Config.tableSize]

/-- The default table holds the canonical handler of the codes that have one (10_state.md R44). -/
theorem getElem?_t0 {code : Nat} (h : code < 256) :
    Config.t0[code]? = some ((commandOf (BitVec.ofNat 8 code)).map Handler.canonical) := by
  rw [Config.t0, Config.tableSize, List.getElem?_map, List.getElem?_range h, Option.map_some]

theorem eq_canonical_of_mem_t0 {hd : Handler} (h : some hd ∈ Config.t0) : ∃ c, hd = .canonical c := by
  obtain ⟨code, -, hcode⟩ := List.mem_map.mp h
  obtain ⟨c, -, rfl⟩ := Option.map_eq_some_iff.mp hcode
  exact ⟨c, rfl⟩

/-- Settles O53: reset records no fault and no result, and the default table holds canonical handlers alone. -/
theorem invariantHoldsAtReset : Obligations.InvariantHoldsAtReset := by
  refine (wf_iff State.reset).mpr ⟨rfl, length_t0, fun hd hmem => ?_, rfl⟩
  obtain ⟨c, rfl⟩ := eq_canonical_of_mem_t0 hmem
  rfl

/-- Settles O58: the launched state has its fields written out, and the default table is `commandOf` at each code. -/
theorem resetState : Obligations.ResetState := by
  refine ⟨fun t p e h => ⟨rfl, isIdle_launch t p e h, rfl, rfl⟩, ⟨_, _, _, rfl⟩, fun c => ?_,
    fun code hcode => ?_⟩
  · rw [getElem?_t0 (codeOf c).isLt, BitVec.ofNat_toNat, BitVec.setWidth_eq, commandOf_codeOf, Option.map_some]
  · have hlt : code < 256 := by omega
    have hnone : commandOf (BitVec.ofNat 8 code) = none := by
      rcases hcode with rfl | hrow
      · rfl
      · refine commandOf_eq_none ?_
        rw [BitVec.toNat_ofNat]
        omega
    rw [getElem?_t0 hlt, hnone, Option.map_none]

end Sys2Proof.Machine
